-- ==== Sys2Proof/Word.lean ====
section
/-! DEFINITION. The word types of the core (spec/00_scope.md R9, R14; spec/30_encoding.md R55). -/

namespace Sys2Proof

/-- One byte of the key or of a host buffer (R10). -/
abbrev Byte := BitVec 8

/-- `word32`: an unsigned 32-bit value (R14). -/
abbrev Word := BitVec 32

/-- `word64`: a 64-bit block field (R14). -/
abbrev DWord := BitVec 64

/-- The 128-bit key field `req.key` (R55). -/
abbrev Key := BitVec 128

/-- A block of two words: word 0 is `A`, word 1 is `B` (R9). -/
structure Block where
  a : Word
  b : Word
  deriving DecidableEq, Repr

/-- The subkey table `S[0..25]` (spec/10_state.md R25). -/
abbrev SubkeyTable := Vector Word 26

end Sys2Proof
end

