-- ==== Sys2Proof/Machine/Operands.lean ====
section
/-! DEFINITION. Operand forms: how keys, blocks and read-back words sit in the 128-bit and 64-bit fields
(spec/20_memory.md R41, R43, R45, R46). -/

namespace Sys2Proof.Machine

/-- Key byte `K[k]`, bits `8k+7 : 8k` of the key field (R41). -/
def keyByte (key : Key) (k : Nat) : Byte := key.extractLsb' (8 * k) 8

/-- Key word `L[j] = K[4j] | (K[4j+1] << 8) | (K[4j+2] << 16) | (K[4j+3] << 24)` (R41, R91 step 2). -/
def keyWord (key : Key) (j : Nat) : Word :=
  (keyByte key (4 * j)).setWidth 32 ||| ((keyByte key (4 * j + 1)).setWidth 32 <<< 8)
    ||| ((keyByte key (4 * j + 2)).setWidth 32 <<< 16) ||| ((keyByte key (4 * j + 3)).setWidth 32 <<< 24)

/-- The working words `L[0..3]` of the key scheduler (R41). -/
def keyWords (key : Key) : Vector Word 4 :=
  #v[keyWord key 0, keyWord key 1, keyWord key 2, keyWord key 3]

/-- A block as a 64-bit field, `{B, A}` (R43). -/
def packBlock (x : Block) : DWord := x.b ++ x.a

/-- The block of a 64-bit field: `A` in bits 31:0, `B` in bits 63:32 (R43). -/
def unpackBlock (v : DWord) : Block := ⟨v.extractLsb' 0 32, v.extractLsb' 32 32⟩

/-- `zext_64` of a word: the form of RDSK's result (R14, R46). -/
def zext64 (w : Word) : DWord := w.setWidth 64

/-- The value of a list of key bytes as a key field, byte 0 first: byte `K[k]` in bits `8k+7 : 8k` (R41, R70). -/
def keyOfBytes : List Byte → Nat
  | [] => 0
  | b :: bs => b.toNat + 256 * keyOfBytes bs

end Sys2Proof.Machine
end

