-- ==== Sys2Proof/Config.lean ====
section
/-! DEFINITION. The fixed parameters of the core (spec/00_scope.md R8) and the values the spec leaves open (R12, R13). -/

namespace Sys2Proof.Config

/-- Word size in bits (R8). -/
abbrev W : Nat := 32

/-- Number of rounds (R8). -/
abbrev ROUNDS : Nat := 12

/-- Key length in bytes (R8). -/
abbrev KEYBYTES : Nat := 16

/-- Subkey table length (R8: `2*(ROUNDS+1)`). -/
abbrev T : Nat := 2 * (ROUNDS + 1)

/-- Key length in 32-bit words (R8). -/
abbrev C : Nat := KEYBYTES / 4

/-- Mixing iterations (R8: `3*max(T, C)`). -/
abbrev NMIX : Nat := 3 * max T C

/-- First magic constant (R8). -/
def P32 : Word := 0xB7E15163#32

/-- Second magic constant (R8). -/
def Q32 : Word := 0x9E3779B9#32

/-- The open parameter `IV0` of the core that `State.reset` describes: a free value (R12, D6; log entry 1). -/
opaque iv0 : Word

/-- The open parameter `IV1` of the core that `State.reset` describes: a free value (R12, D6; log entry 1). -/
opaque iv1 : Word

/-- Open parameter `LAT_KEYINIT`, in cycles; it may depend on the request's fields (R13, R196, D16; log entry 3). -/
opaque latKeyinit (cmd : Word) (key : Key) (din : DWord) : Nat

/-- Open parameter `LAT_BLOCK`, in cycles, for ENCBLK and DECBLK (R13, R196, D16; log entry 3). -/
opaque latBlock (cmd : Word) (key : Key) (din : DWord) : Nat

/-- Open parameter `LAT_READ`, in cycles, for RDSK and RDCK (R13, R196, D16; log entry 3). -/
opaque latRead (cmd : Word) (key : Key) (din : DWord) : Nat

end Sys2Proof.Config
end

