-- ==== Sys2Proof/Syntax.lean ====
section
/-! DEFINITION. Requests and the five commands, with their operands (spec/30_encoding.md R55, R58, R61). -/

namespace Sys2Proof

/-- A request: the three fields the core latches together (R55). -/
structure Request where
  cmd : Word
  key : Key
  din : DWord
  deriving DecidableEq, Repr

/-- The commands of interface version 1, each with the operands R61 gives it; a field a command ignores is not in it. -/
inductive Instr where
  /-- KEYINIT: `key` is `req.key` (spec/41_key_schedule.md R96). -/
  | keyinit (key : Key)
  /-- ENCBLK: `p` is the plaintext block of `req.din` (spec/43_cbc_chain.md R121). -/
  | encblk (p : Block)
  /-- DECBLK: `c` is the ciphertext block of `req.din` (spec/43_cbc_chain.md R123). -/
  | decblk (c : Block)
  /-- RDSK: `k` is the unsigned value of the 5-bit `IDX` field (spec/44_readback.md R135, spec/30_encoding.md R62). -/
  | rdsk (k : Nat)
  /-- RDCK (spec/44_readback.md R137). -/
  | rdck
  deriving DecidableEq, Repr

end Sys2Proof
end

