-- ==== Sys2Proof/WellFormed.lean ====
section
/-! DEFINITION. Which instructions a command word can express (spec/30_encoding.md R57, R62). -/

namespace Sys2Proof

/-- The one operand whose type is wider than its field is RDSK's index: `IDX` has 5 bits (R57, R62). Indices 26..31 are
well-formed words, which the core answers with ERR_BAD_INDEX (spec/44_readback.md R136). -/
def Instr.wellFormed : Instr → Bool
  | .keyinit _ => true
  | .encblk _ => true
  | .decblk _ => true
  | .rdsk k => decide (k < 32)
  | .rdck => true

end Sys2Proof
end

