-- ==== Sys2Proof/Decode.lean ====
section
/-! DEFINITION. The decoder and the encoder of requests (spec/30_encoding.md R57 to R63). -/

namespace Sys2Proof

/-- Field `OP` (R57). -/
def opField (w : Word) : BitVec 4 := w.extractLsb' 0 4

/-- Field `RSV0` (R57). -/
def rsv0Field (w : Word) : BitVec 4 := w.extractLsb' 4 4

/-- Field `IDX` (R57). -/
def idxField (w : Word) : BitVec 5 := w.extractLsb' 8 5

/-- Field `RSV1` (R57). -/
def rsv1Field (w : Word) : BitVec 19 := w.extractLsb' 13 19

/-- Why a command word is illegal (R63, in its own order). -/
inductive Illegal where
  /-- `OP` is `0x0` or `0x6`..`0xF`. -/
  | reservedOp
  /-- A bit of `RSV0` or `RSV1` is set. -/
  | reservedBits
  /-- `IDX` is not 0 with an `OP` other than RDSK's. -/
  | indexNotZero
  deriving DecidableEq, Repr

/-- The answer of the decoder: `Command | Illegal` (R60). -/
inductive Decoded where
  | command (i : Instr)
  | illegal (why : Illegal)
  deriving DecidableEq, Repr

/-- The command `i`, unless the index field, which `i` does not use, is set (R60). -/
def needZeroIndex (w : Word) (i : Instr) : Decoded :=
  if idxField w = 0#5 then .command i else .illegal .indexNotZero

/-- Decode, total on every request: R60 on the command word, with the operands R61 takes from the other fields. -/
def decode (r : Request) : Decoded :=
  if rsv1Field r.cmd ≠ 0#19 ∨ rsv0Field r.cmd ≠ 0#4 then .illegal .reservedBits
  else
    match (opField r.cmd).toNat with
    | 1 => needZeroIndex r.cmd (.keyinit r.key)
    | 2 => needZeroIndex r.cmd (.encblk (Machine.unpackBlock r.din))
    | 3 => needZeroIndex r.cmd (.decblk (Machine.unpackBlock r.din))
    | 4 => .command (.rdsk (idxField r.cmd).toNat)
    | 5 => needZeroIndex r.cmd .rdck
    | _ => .illegal .reservedOp

/-- A command word with `RSV0 = RSV1 = 0` (R57). -/
def cmdWord (op : BitVec 4) (idx : BitVec 5) : Word := 0#19 ++ idx ++ 0#4 ++ op

/-- The `OP` code of each command (R58). -/
def opCode : Instr → BitVec 4
  | .keyinit _ => 1#4
  | .encblk _ => 2#4
  | .decblk _ => 3#4
  | .rdsk _ => 4#4
  | .rdck => 5#4

/-- The request of a command: its word (R59), its operand fields (R41, R43, R61), and zero in the fields it does not use
(R70: "Omitted operand fields are zero"). -/
def encode : Instr → Request
  | .keyinit key => ⟨cmdWord 1#4 0#5, key, 0#64⟩
  | .encblk p => ⟨cmdWord 2#4 0#5, 0#128, Machine.packBlock p⟩
  | .decblk c => ⟨cmdWord 3#4 0#5, 0#128, Machine.packBlock c⟩
  | .rdsk k => ⟨cmdWord 4#4 (BitVec.ofNat 5 k), 0#128, 0#64⟩
  | .rdck => ⟨cmdWord 5#4 0#5, 0#128, 0#64⟩

/-- One row of the table of legal command words (R59). -/
structure OpcodeRow where
  mnemonic : String
  pattern : Word
  mask : Word
  deriving DecidableEq, Repr

/-- The five rows of R59. -/
def opcodeRows : List OpcodeRow :=
  [⟨"KEYINIT", 0x00000001#32, 0xFFFFFFFF#32⟩,
   ⟨"ENCBLK", 0x00000002#32, 0xFFFFFFFF#32⟩,
   ⟨"DECBLK", 0x00000003#32, 0xFFFFFFFF#32⟩,
   ⟨"RDSK", 0x00000004#32, 0xFFFFE0FF#32⟩,
   ⟨"RDCK", 0x00000005#32, 0xFFFFFFFF#32⟩]

/-- A word selects a row when `(w AND mask) = match` (R59). -/
def OpcodeRow.selects (row : OpcodeRow) (w : Word) : Bool := (w &&& row.mask) == row.pattern

/-- The mnemonic of a command, as R58 names it. -/
def mnemonic : Instr → String
  | .keyinit _ => "KEYINIT"
  | .encblk _ => "ENCBLK"
  | .decblk _ => "DECBLK"
  | .rdsk _ => "RDSK"
  | .rdck => "RDCK"

/-- The number of cycles of a command is an open parameter, one for each kind of command (spec/00_scope.md R13). No other
definition uses it (R196; log entry 3). -/
def latency (r : Request) : Instr → Nat
  | .keyinit _ => Config.latKeyinit r.cmd r.key r.din
  | .encblk _ => Config.latBlock r.cmd r.key r.din
  | .decblk _ => Config.latBlock r.cmd r.key r.din
  | .rdsk _ => Config.latRead r.cmd r.key r.din
  | .rdck => Config.latRead r.cmd r.key r.din

/-- A request as one number: the command word in bits 31..0, and the operand fields above it (`key` from bit 32, `din` from
bit 160; log entry 9). Of the number only the lowest `nbits` bits count. -/
def requestOfNumber (nbits w : Nat) : Request :=
  let v := w % 2 ^ nbits
  ⟨BitVec.ofNat 32 v, BitVec.ofNat 128 (v / 2 ^ 32), BitVec.ofNat 64 (v / 2 ^ 160)⟩

/-- The command of a decoder's answer, if it is one. -/
def Decoded.command? : Decoded → Option Instr
  | .command i => some i
  | .illegal _ => none

/-- The instruction the decoder reads from an opcode-table word. -/
def decodeTableWord (nbits w : Nat) : Option Instr := (decode (requestOfNumber nbits w)).command?

end Sys2Proof
end

