-- ==== Sys2Proof/Machine/State.lean ====
section
/-! DEFINITION. The state of the core, of its port and of the host side, as plain data (spec/10_state.md R20 to R35,
spec/30_encoding.md R55, R56, R68, spec/45_stream_host.md R145 to R153, spec/70_reset_and_hazards.md R180). -/

namespace Sys2Proof.Machine

/-- The status codes a response can carry (R68). The codes `0x4`..`0xF` are never produced, so they have no constructor. -/
inductive Status where
  | ok
  | errNotKeyed
  | errIllegalCmd
  | errBadIndex
  deriving DecidableEq, Repr

/-- A response of the core (R56). -/
structure Response where
  status : Status
  dout : DWord
  deriving DecidableEq, Repr

/-- The source's state machine `Uninitialized → Keyed` (R22) with the registers that hold a value only in `Keyed`
(R21, R24; log entry 2): `KEYED` is 0 in `uninitialized` and 1 in `keyed`. -/
inductive Lifecycle where
  /-- `KEYED = 0`: `S` and `CK` hold no value (R24). -/
  | uninitialized
  /-- `KEYED = 1`: the subkey table (R25) and the chain vector, `CK[0]` beside word A and `CK[1]` beside word B (R28). -/
  | keyed (S : SubkeyTable) (CK : Block)
  deriving DecidableEq, Repr

/-- The parameters fixed for a core when it is built (R12, R34; log entry 1). -/
structure Params where
  iv0 : Word
  iv1 : Word
  deriving DecidableEq, Repr

/-- An accepted request, with its fields as latched, and the host agent that issued it (R55, R190). -/
structure InFlight where
  agent : Nat
  req : Request
  deriving DecidableEq, Repr

/-- Which block command a stream call iterates (R146, R147). -/
inductive Direction where
  | enc
  | dec
  deriving DecidableEq, Repr

/-- A stream call, or what is left of it: byte addresses of the output and the input, and a byte count (R146). -/
structure StreamCall where
  dir : Direction
  out : Nat
  inp : Nat
  len : Nat
  deriving DecidableEq, Repr

/-- What a host agent does: send one request, or run a stream call (R145, R146). -/
inductive HostOp where
  | command (r : Request)
  | stream (c : StreamCall)
  deriving DecidableEq, Repr

/-- What a host agent gets back: the response of a command it sent, or the status a stream call returned (R56, R152). -/
inductive Receipt where
  | response (r : Response)
  | returned (st : Status)
  deriving DecidableEq, Repr

/-- A host agent: what it still has to do, the request it presents while it is held, and what it has received (R145, R190). -/
structure Agent where
  todo : List HostOp
  waiting : Option Request
  received : List Receipt
  deriving DecidableEq, Repr

/-- What happens next, outside the core's control (R52, R181; log entries 4 and 5). -/
inductive Event where
  /-- The host agent of this number presents its next request, or goes on presenting the one that is held. -/
  | present (agent : Nat)
  /-- The command in progress runs and its response is returned. -/
  | complete
  /-- The reset input is asserted. -/
  | reset
  deriving DecidableEq, Repr

/-- The core (`life`), its port, the parameters of this core, and the host side. -/
structure State where
  life : Lifecycle
  params : Params
  inProgress : Option InFlight
  response : Option Response
  agents : List Agent
  schedule : List Event
  mem : List Host.Cell
  deriving DecidableEq, Repr

/-- Nothing stops this machine with a fault: an error is a response (spec/60_exceptions.md R160, R161). So this type has no
constructor. Safe: there is nothing to raise. -/
inductive Fault where
  deriving DecidableEq, Repr

/-- Why the model gives no meaning. -/
inductive Refusal where
  /-- Raised by an arm of `exec` for an instruction that has no meaning yet. Safe. No arm raises it. -/
  | notModelled (mnemonic : String)
  /-- Raised by the host driver for a stream call whose buffers are not `len` bytes of host memory: "a model of the host must
  refuse it rather than give it a result" (spec/45_stream_host.md R153, U11). Safe. No command raises it. -/
  | bufferNotHostMemory (c : StreamCall)
  deriving DecidableEq, Repr

/-- The state after reset (spec/70_reset_and_hazards.md R180): Uninitialized, nothing in progress; on the host side nothing is
asked for yet (log entries 1, 4 and 7). -/
def State.reset : State where
  life := .uninitialized
  params := ⟨Config.iv0, Config.iv1⟩
  inProgress := none
  response := none
  agents := []
  schedule := []
  mem := []

end Sys2Proof.Machine
end

