-- ==== Sys2Proof/Machine/Flags.lean ====
section
/-! DEFINITION. The one flag of the core, KEYED, the readable views of its registers, and the status codes
(spec/10_state.md R22, R23, spec/30_encoding.md R68). The core has no other flag (spec/40_primitives.md R86). -/

namespace Sys2Proof.Machine

/-- `KEYED` (R22). -/
def State.KEYED (s : State) : Bool :=
  match s.life with
  | .uninitialized => false
  | .keyed _ _ => true

/-- The subkey table, where it holds a value (R21, R24). -/
def State.S (s : State) : Option SubkeyTable :=
  match s.life with
  | .uninitialized => none
  | .keyed S _ => some S

/-- The chain vector, where it holds a value (R21, R24). -/
def State.CK (s : State) : Option Block :=
  match s.life with
  | .uninitialized => none
  | .keyed _ CK => some CK

/-- The 4-bit code of a status (R68). -/
def statusCode : Status → BitVec 4
  | .ok => 0x0#4
  | .errNotKeyed => 0x1#4
  | .errIllegalCmd => 0x2#4
  | .errBadIndex => 0x3#4

/-- The status a 4-bit code names; the codes `0x4`..`0xF` are reserved (R68, U9). -/
def statusOfCode (c : BitVec 4) : Option Status :=
  match c.toNat with
  | 0 => some .ok
  | 1 => some .errNotKeyed
  | 2 => some .errIllegalCmd
  | 3 => some .errBadIndex
  | _ => none

end Sys2Proof.Machine
end

