-- ==== Sys2Proof/Machine/Memory.lean ====
section
/-! DEFINITION. The host's buffer memory: MemRead and MemWrite (spec/20_memory.md R40, R44). The core itself neither reads
nor writes memory (R40). -/

namespace Sys2Proof.Machine

/-- The canonical form: addresses strictly rising. An unlisted address is not host memory, so it has no value, and no entry
can equal that (log entry 7). -/
abbrev Memory.wf (m : List Host.Cell) : Prop := m.Pairwise (fun x y => x.1 < y.1)

/-- The byte at an address, if that address is host memory. -/
def readByte : List Host.Cell → Nat → Option Byte
  | [], _ => none
  | c :: m, x => if c.1 = x then some c.2 else readByte m x

/-- The memory with the byte at an address replaced, if that address is host memory. -/
def writeByte : List Host.Cell → Nat → Byte → Option (List Host.Cell)
  | [], _, _ => none
  | c :: m, x, v => if c.1 = x then some ((c.1, v) :: m) else (writeByte m x v).map (c :: ·)

/-- `MemRead(addr, n)`: little-endian, the byte at `addr` in bits 7:0 (R40). -/
def memRead (m : List Host.Cell) (addr : Nat) : (n : Nat) → Option (BitVec (8 * n))
  | 0 => some 0#0
  | n + 1 =>
    match readByte m addr, memRead m (addr + 1) n with
    | some b, some hi => some (hi ++ b)
    | _, _ => none

/-- `MemWrite(addr, n, v)`: bits `8m+7 : 8m` of `v` to the byte at `addr+m` (R40). -/
def memWrite (m : List Host.Cell) (addr : Nat) : (n : Nat) → BitVec (8 * n) → Option (List Host.Cell)
  | 0, _ => some m
  | n + 1, v =>
    match writeByte m addr (v.extractLsb' 0 8) with
    | some m' => memWrite m' (addr + 1) n (v.extractLsb' 8 (8 * n))
    | none => none

/-- The `len` bytes from `addr` are host memory (spec/45_stream_host.md R153). -/
def isHostMemory (m : List Host.Cell) (addr len : Nat) : Bool :=
  (List.range len).all fun n => (readByte m (addr + n)).isSome

end Sys2Proof.Machine
end

