-- ==== Sys2Proof/Machine/Primitives.lean ====
section
/-! DEFINITION. The primitive word operations of the datapath (spec/40_primitives.md R80 to R86). None sets a flag, raises an
error or depends on state (R86). -/

namespace Sys2Proof.Machine

/-- ADD32 (R80). -/
def add32 (x y : Word) : Word := x + y

/-- SUB32 (R81). -/
def sub32 (x y : Word) : Word := x - y

/-- XOR32 (R82). -/
def xor32 (x y : Word) : Word := x ^^^ y

/-- ROTL32: the amount is the low 5 bits of `n` (R83, R85). -/
def rotl (x n : Word) : Word :=
  let s := n.toNat % 32
  if s = 0 then x else (x <<< s) ||| (x >>> (32 - s))

/-- ROTR32: the amount is the low 5 bits of `n` (R84). -/
def rotr (x n : Word) : Word :=
  let s := n.toNat % 32
  if s = 0 then x else (x >>> s) ||| (x <<< (32 - s))

/-- XOR32 on both words of a block, as the chain uses it (spec/43_cbc_chain.md R121, R123). -/
def xorBlock (x y : Block) : Block := ⟨xor32 x.a y.a, xor32 x.b y.b⟩

end Sys2Proof.Machine
end

