-- ==== Sys2Proof/Machine/Ops.lean ====
section
/-! DEFINITION. The shared operations of the commands: answering, raising an error, the KEYED guard, and the reads and writes
of the core's registers (spec/00_scope.md R15, spec/60_exceptions.md R160 to R167). -/

namespace Sys2Proof.Machine

/-- `respond(status, dout)` ends the command and returns the response (R15, R56). -/
def respond (st : Status) (dout : DWord) (s : State) : State :=
  { s with response := some ⟨st, dout⟩, inProgress := none }

/-- `raise Error(code)`: the response is `(code, 0)` and every register of the core keeps its value (R15, R162, R69). This
is the whole error mechanism: the core has no trap and no return from one (R160, R170). -/
def raiseError (code : Status) (s : State) : State := respond code 0#64 s

/-- The guard of R163: with `KEYED = 0` the command answers ERR_NOT_KEYED; otherwise it goes on with the values of the subkey
table and the chain vector before the command. -/
def requireKeyed (s : State) (body : SubkeyTable → Block → Host.Outcome State Fault Refusal) :
    Host.Outcome State Fault Refusal :=
  match s.life with
  | .uninitialized => .next (raiseError .errNotKeyed s)
  | .keyed S CK => body S CK

/-- KEYINIT's writes: all 26 subkeys, both chain words from the IV, and `KEYED <- 1` (spec/41_key_schedule.md R96). -/
def installKey (S : SubkeyTable) (s : State) : State :=
  { s with life := .keyed S ⟨s.params.iv0, s.params.iv1⟩ }

/-- `CK[0] <- C0; CK[1] <- C1` beside the subkey table `S`, which a chained command does not change
(spec/10_state.md R27, R29). -/
def writeChain (S : SubkeyTable) (c : Block) (s : State) : State := { s with life := .keyed S c }

/-- The reset input: the core is as R180 says, a command in progress is abandoned, and its response is never delivered
(spec/70_reset_and_hazards.md R180, R181). The parameters keep their values (R180), and so does the host's side (log entry 6). -/
def resetCore (s : State) : State :=
  { s with life := .uninitialized, inProgress := none, response := none }

end Sys2Proof.Machine
end

