-- ==== Sys2Proof/Machine/BlockCipher.lean ====
section
/-! DEFINITION. The block functions Encode and Decode (spec/42_block_cipher.md R105 to R112). No command exposes them alone. -/

namespace Sys2Proof.Machine

/-- Round `r + 1` of Encode (R105, R106), for `r = 0..11`. -/
def encodeRound (S : SubkeyTable) (r : Fin 12) (x : Block) : Block :=
  let a := add32 (rotl (xor32 x.a x.b) x.b) S[2 * (r.val + 1)]
  let b := add32 (rotl (xor32 x.b a) a) S[2 * (r.val + 1) + 1]
  ⟨a, b⟩

/-- Round `r + 1` of Decode (R108, R109), for `r = 0..11`. -/
def decodeRound (S : SubkeyTable) (r : Fin 12) (x : Block) : Block :=
  let b := xor32 (rotr (sub32 x.b S[2 * (r.val + 1) + 1]) x.a) x.a
  let a := xor32 (rotr (sub32 x.a S[2 * (r.val + 1)]) b) b
  ⟨a, b⟩

/-- The pre-whitening of Encode (R105). -/
def whiten (S : SubkeyTable) (x : Block) : Block := ⟨add32 x.a S[0], add32 x.b S[1]⟩

/-- The final subtractions of Decode, with no exclusive-or (R108, C1). -/
def unwhiten (S : SubkeyTable) (x : Block) : Block := ⟨sub32 x.a S[0], sub32 x.b S[1]⟩

/-- Encode's rounds over a list of rounds, first round first. -/
def encodeRounds (S : SubkeyTable) : List (Fin 12) → Block → Block
  | [], x => x
  | r :: rs, x => encodeRounds S rs (encodeRound S r x)

/-- Decode's rounds over a list of rounds, first round first. -/
def decodeRounds (S : SubkeyTable) : List (Fin 12) → Block → Block
  | [], x => x
  | r :: rs, x => decodeRounds S rs (decodeRound S r x)

/-- The rounds in the order of Encode, 1 to 12. -/
def roundsUp : List (Fin 12) := [0, 1, 2, 3, 4, 5, 6, 7, 8, 9, 10, 11]

/-- `Encode` (R105). -/
def encodeBlock (S : SubkeyTable) (x : Block) : Block := encodeRounds S roundsUp (whiten S x)

/-- `Decode` (R108): the rounds from 12 down to 1. -/
def decodeBlock (S : SubkeyTable) (x : Block) : Block := unwhiten S (decodeRounds S roundsUp.reverse x)

end Sys2Proof.Machine
end

