-- ==== Sys2Proof/Machine/Chain.lean ====
section
/-! DEFINITION. The CBC commands ENCBLK and DECBLK (spec/43_cbc_chain.md R120 to R129). -/

namespace Sys2Proof.Machine

/-- ENCBLK (R121): `C = Encode(P xor CK, S)`, `CK <- C`, respond `{C1, C0}`. -/
def execEncblk (p : Block) (s : State) : Host.Outcome State Fault Refusal :=
  requireKeyed s fun S CK =>
    let c := encodeBlock S (xorBlock p CK)
    .next (respond .ok (packBlock c) (writeChain S c s))

/-- DECBLK (R123, R124): `P = Decode(C, S) xor CK` with the old `CK`, `CK <- C` (the input), respond `{Pout1, Pout0}`. -/
def execDecblk (c : Block) (s : State) : Host.Outcome State Fault Refusal :=
  requireKeyed s fun S CK =>
    let p := xorBlock (decodeBlock S c) CK
    .next (respond .ok (packBlock p) (writeChain S c s))

end Sys2Proof.Machine
end

