-- ==== Sys2Proof/Machine/KeySchedule.lean ====
section
/-! DEFINITION. The key scheduler and KEYINIT (spec/41_key_schedule.md R90 to R99). -/

namespace Sys2Proof.Machine

/-- Step 3 of R91: `S[0] = P32`, `S[i] = S[i-1] + Q32`. -/
def magicWord : Nat → Word
  | 0 => Config.P32
  | i + 1 => add32 (magicWord i) Config.Q32

/-- The table of step 3, before mixing (R91, R92). -/
def magicTable : SubkeyTable := Vector.ofFn fun i => magicWord i.val

/-- The working storage of the mixing pass: the table, `L[0..3]`, the accumulators and the indices. It lives only inside
`expand` (spec/10_state.md R31). -/
structure Mixing where
  S : SubkeyTable
  L : Vector Word 4
  a : Word
  b : Word
  i : Fin 26
  j : Fin 4
  deriving DecidableEq, Repr

/-- The storage before the first iteration (R91 steps 2 to 4). -/
def mixStart (key : Key) : Mixing := ⟨magicTable, keyWords key, 0#32, 0#32, 0, 0⟩

/-- One mixing iteration, in the order of R93. -/
def mixStep (m : Mixing) : Mixing :=
  let a := rotl (add32 (add32 m.S[m.i] m.a) m.b) 3#32
  let b := rotl (add32 (add32 m.L[m.j] a) m.b) (add32 a m.b)
  { S := m.S.set m.i a, L := m.L.set m.j b, a := a, b := b, i := m.i + 1, j := m.j + 1 }

/-- The storage after `n` more iterations. -/
def mixTimes : Nat → Mixing → Mixing
  | 0, m => m
  | n + 1, m => mixTimes n (mixStep m)

/-- `Expand`: a pure function of the key (R90, R91). -/
def expand (key : Key) : SubkeyTable := (mixTimes Config.NMIX (mixStart key)).S

/-- KEYINIT (R96, R97). It is legal in both states and never raises ERR_NOT_KEYED. -/
def execKeyinit (key : Key) (s : State) : Host.Outcome State Fault Refusal :=
  .next (respond .ok 0#64 (installKey (expand key) s))

end Sys2Proof.Machine
end

