-- ==== Sys2Proof/Machine/Readback.lean ====
section
/-! DEFINITION. The read-back commands RDSK and RDCK (spec/44_readback.md R135 to R138). -/

namespace Sys2Proof.Machine

/-- RDSK (R135, R136): the KEYED check comes before the index check (spec/60_exceptions.md R166). -/
def execRdsk (k : Nat) (s : State) : Host.Outcome State Fault Refusal :=
  requireKeyed s fun S _ =>
    if h : k < 26 then .next (respond .ok (zext64 S[k]) s) else .next (raiseError .errBadIndex s)

/-- RDCK (R137): `{CK[1], CK[0]}`. -/
def execRdck (s : State) : Host.Outcome State Fault Refusal :=
  requireKeyed s fun _ CK => .next (respond .ok (packBlock CK) s)

end Sys2Proof.Machine
end

