-- ==== Sys2Proof/Machine/Dispatch.lean ====
section
/-! DEFINITION. One arm per command (spec/30_encoding.md R58). -/

namespace Sys2Proof.Machine

def exec (i : Instr) (s : State) : Host.Outcome State Fault Refusal :=
  match i with
  | .keyinit key => Sys2Proof.Machine.execKeyinit key s
  | .encblk p => Sys2Proof.Machine.execEncblk p s
  | .decblk c => Sys2Proof.Machine.execDecblk c s
  | .rdsk k => Sys2Proof.Machine.execRdsk k s
  | .rdck => Sys2Proof.Machine.execRdck s

end Sys2Proof.Machine
end

