-- ==== Sys2Proof/Machine/HostDriver.lean ====
section
/-! DEFINITION. The core's port and the host side: presenting, holding and accepting a request, completing it, delivering its
response, and the stream driver (spec/45_stream_host.md R145 to R153, spec/70_reset_and_hazards.md R181, R190). -/

namespace Sys2Proof.Machine

/-- The command word a stream call sends (R146, R147). -/
def StreamCall.cmd (c : StreamCall) : Word :=
  match c.dir with
  | .enc => 0x00000002#32
  | .dec => 0x00000003#32

/-- What is left of a stream call after one block: `n = n + 8` (R146). -/
def StreamCall.advance (c : StreamCall) : StreamCall :=
  { c with out := c.out + 8, inp := c.inp + 8, len := c.len - 8 }

/-- Both buffers of a stream call are host memory (R153). -/
def buffersOk (m : List Host.Cell) (c : StreamCall) : Bool :=
  isHostMemory m c.inp c.len && isHostMemory m c.out c.len

/-- Host agent `n` is now `ag`. -/
def setAgent (n : Nat) (ag : Agent) (s : State) : State := { s with agents := s.agents.set n ag }

/-- Agent `n`, which is `ag`, presents `r`: an idle core latches it whole, a busy core holds the requester (R55, R190). -/
def offer (n : Nat) (ag : Agent) (r : Request) (s : State) : State :=
  match s.inProgress with
  | none => setAgent n { ag with waiting := none } { s with inProgress := some ⟨n, r⟩ }
  | some _ => setAgent n { ag with waiting := some r } s

/-- Agent `n` begins its next operation. A stream call with fewer than 8 bytes left returns OK and sends nothing (R149, R150);
otherwise its next input block is read and sent (R146). A call outside host memory is refused (R153). -/
def beginOp (n : Nat) (ag : Agent) (s : State) : Host.Outcome State Fault Refusal :=
  match ag.todo with
  | [] => .next s
  | .command r :: _ => .next (offer n ag r s)
  | .stream c :: rest =>
    if buffersOk s.mem c then
      if c.len < 8 then
        .next (setAgent n { ag with todo := rest, received := ag.received ++ [.returned .ok] } s)
      else
        match memRead s.mem c.inp 8 with
        | some din => .next (offer n ag ⟨c.cmd, 0#128, din⟩ s)
        | none => .refused (.bufferNotHostMemory c)
    else .refused (.bufferNotHostMemory c)

/-- The request in progress is agent `n`'s, so `n` waits for its response (R145). -/
def awaitsResponse (n : Nat) (s : State) : Bool :=
  match s.inProgress with
  | none => false
  | some f => f.agent == n

/-- Agent `n` presents: the request that is held, or else its next operation's (R145, R190). -/
def present (n : Nat) (s : State) : Host.Outcome State Fault Refusal :=
  match s.agents[n]? with
  | none => .next s
  | some ag =>
    if awaitsResponse n s then .next s
    else
      match ag.waiting with
      | some r => .next (offer n ag r s)
      | none => beginOp n ag s

/-- The core runs an accepted request: the decoded command, or ERR_ILLEGAL_CMD (spec/30_encoding.md R60,
spec/60_exceptions.md R164). -/
def runRequest (r : Request) (s : State) : Host.Outcome State Fault Refusal :=
  match decode r with
  | .command i => exec i s
  | .illegal _ => .next (raiseError .errIllegalCmd s)

/-- Agent `n` takes the response `resp` of its operation. A stream call writes the output block and goes on after OK; after
an error it writes nothing, stops and returns the status (R146, R152). DESIGN CHOICE: the output block is written in the step
that completes its request, so no agent presents between the response and the write (log entry 15). DESIGN CHOICE: an agent
goes on with its next operation whatever the status (R160 leaves that to the host; log entry 16). An agent that is not there, or asks for nothing, takes
nothing: the response is then seen at the port only (log entry 4). -/
def deliver (n : Nat) (resp : Response) (s : State) : Host.Outcome State Fault Refusal :=
  match s.agents[n]? with
  | none => .next s
  | some ag =>
    match ag.todo with
    | [] => .next s
    | .command _ :: rest =>
      .next (setAgent n { ag with todo := rest, received := ag.received ++ [.response resp] } s)
    | .stream c :: rest =>
      if resp.status = .ok then
        match memWrite s.mem c.out 8 resp.dout with
        | some mem' => .next (setAgent n { ag with todo := .stream c.advance :: rest } { s with mem := mem' })
        | none => .refused (.bufferNotHostMemory c)
      else .next (setAgent n { ag with todo := rest, received := ag.received ++ [.returned resp.status] } s)

/-- The response at the port goes to the agent whose request was in progress (R56). -/
def deliverResponse (n : Nat) (s : State) : Host.Outcome State Fault Refusal :=
  match s.response with
  | none => .next s
  | some resp => deliver n resp s

/-- The request in progress runs as one atomic step and is answered; an idle core goes on waiting (R182, R190). -/
def complete (s : State) : Host.Outcome State Fault Refusal :=
  match s.inProgress with
  | none => .next s
  | some f =>
    match runRequest f.req s with
    | .next s' => deliverResponse f.agent s'
    | .fault e => .fault e
    | .refused e => .refused e

/-- One event (log entry 5). -/
def handleEvent (e : Event) (s : State) : Host.Outcome State Fault Refusal :=
  match e with
  | .present n => present n s
  | .complete => complete s
  | .reset => .next (resetCore s)

/-- The next event, or, where none is left, the completion of the request in progress (R196: every accepted request gets its
response; log entry 5). -/
def nextStep (s : State) : Host.Outcome State Fault Refusal :=
  match s.schedule with
  | [] => complete s
  | e :: rest => handleEvent e { s with schedule := rest }

/-- `s` with the request accepted from an agent outside the list (so that only the port sees the response), and its
completion as the next event (log entry 4). -/
def placeRequest (r : Request) (s : State) : State :=
  { s with inProgress := some ⟨s.agents.length, r⟩, schedule := .complete :: s.schedule }

end Sys2Proof.Machine
end

