-- ==== Sys2Proof/Machine/Step.lean ====
section
/-! DEFINITION. One step of the core and its host (spec/70_reset_and_hazards.md R190). -/

namespace Sys2Proof.Machine

/-- One step: the next event. Every command runs as one atomic step (R13, R190). -/
def step (s : State) : Host.Outcome State Fault Refusal := nextStep s

/-- `s` with an opcode-table word as the request in progress, which the very next step runs (log entries 4 and 9). -/
def State.withFetchWord (s : State) (nbits w : Nat) : State := placeRequest (requestOfNumber nbits w) s

end Sys2Proof.Machine
end

