-- ==== Sys2Proof/Machine/Assembler.lean ====
section
/-! DEFINITION. The assembler's lines and pseudo-instructions, and what they make a host agent do
(spec/30_encoding.md R70, R71; log entry 14 for the layout of a text line). -/

namespace Sys2Proof.Machine

/-- One line of assembly (R70), or a pseudo-instruction (R71). -/
inductive AsmLine where
  /-- A command with its operands. -/
  | command (i : Instr)
  /-- `.word 0xNNNNNNNN`: an arbitrary command word with zero operands. -/
  | word (w : Word)
  /-- `INIT <key>` is `KEYINIT <key>`. -/
  | init (key : Key)
  /-- `ENCSTREAM out, in, len`. -/
  | encstream (out inp len : Nat)
  /-- `DECSTREAM out, in, len`. -/
  | decstream (out inp len : Nat)
  /-- `RDSKALL`: the whole subkey table. -/
  | rdskall
  deriving DecidableEq, Repr

/-- What a line makes a host agent do (R70, R71). -/
def AsmLine.ops : AsmLine → List HostOp
  | .command i => [.command (encode i)]
  | .word w => [.command ⟨w, 0#128, 0#64⟩]
  | .init key => [.command (encode (.keyinit key))]
  | .encstream out inp len => [.stream ⟨.enc, out, inp, len⟩]
  | .decstream out inp len => [.stream ⟨.dec, out, inp, len⟩]
  | .rdskall => (List.range 26).map fun k => .command (encode (.rdsk k))

/-- A token of a line. -/
inductive Token where
  | text (cs : List Char)
  | comma
  deriving DecidableEq, Repr

/-- The token of the characters read so far, last one first. -/
def flushToken : List Char → List Token
  | [] => []
  | c :: cs => [.text (c :: cs).reverse]

/-- The tokens of a line: commas stand alone, spaces and tabs separate. -/
def tokenize (acc : List Char) : List Char → List Token
  | [] => flushToken acc
  | c :: cs =>
    if c = ',' then flushToken acc ++ .comma :: tokenize [] cs
    else if c = ' ' ∨ c = '\t' then flushToken acc ++ tokenize [] cs
    else tokenize (c :: acc) cs

/-- Mnemonics are case-insensitive (R70). -/
def upperChar (c : Char) : Char :=
  if 97 ≤ c.toNat ∧ c.toNat ≤ 122 then Char.ofNat (c.toNat - 32) else c

/-- The value of a hexadecimal digit. -/
def hexDigit (c : Char) : Option Nat :=
  if 48 ≤ c.toNat ∧ c.toNat ≤ 57 then some (c.toNat - 48)
  else if 65 ≤ c.toNat ∧ c.toNat ≤ 70 then some (c.toNat - 55)
  else if 97 ≤ c.toNat ∧ c.toNat ≤ 102 then some (c.toNat - 87)
  else none

/-- The value of a decimal digit. -/
def decDigit (c : Char) : Option Nat :=
  if 48 ≤ c.toNat ∧ c.toNat ≤ 57 then some (c.toNat - 48) else none

/-- The value of digits in a base, after the value `acc` of the digits before them. -/
def digitsValue (base : Nat) (digit : Char → Option Nat) (acc : Nat) : List Char → Option Nat
  | [] => some acc
  | c :: cs =>
    match digit c with
    | some d => digitsValue base digit (base * acc + d) cs
    | none => none

/-- A decimal number: `k` of RDSK (R70). -/
def parseDecimal : List Char → Option Nat
  | [] => none
  | c :: cs => digitsValue 10 decDigit 0 (c :: cs)

/-- A hexadecimal number with `0x` (R70). -/
def parseHex : List Char → Option Nat
  | '0' :: 'x' :: c :: cs => digitsValue 16 hexDigit 0 (c :: cs)
  | _ => none

/-- A 32-bit word (R70). -/
def parseWord (cs : List Char) : Option Word :=
  match parseHex cs with
  | some n => if n < 2 ^ 32 then some (BitVec.ofNat 32 n) else none
  | none => none

/-- Bytes, two hexadecimal digits each, high digit first. -/
def parseBytes : List Char → Option (List Byte)
  | [] => some []
  | [_] => none
  | h :: l :: cs =>
    match hexDigit h, hexDigit l, parseBytes cs with
    | some x, some y, some bs => some (BitVec.ofNat 8 (16 * x + y) :: bs)
    | _, _, _ => none

/-- `<key>`: 32 hex digits, bytes `K[0]` first (R70). -/
def parseKey (cs : List Char) : Option Key :=
  match parseBytes cs with
  | some bs => if bs.length = 16 then some (BitVec.ofNat 128 (keyOfBytes bs)) else none
  | none => none

/-- The operands `<A>, <B>` of a block command (R70). -/
def parseBlock : List Token → Option Block
  | [.text a, .comma, .text b] =>
    match parseWord a, parseWord b with
    | some x, some y => some ⟨x, y⟩
    | _, _ => none
  | _ => none

/-- The operand of a command that takes a key. -/
def parseKeyOperand : List Token → Option Key
  | [.text k] => parseKey k
  | _ => none

/-- The decimal index 0..31 of RDSK (R70). -/
def parseIndex : List Token → Option Nat
  | [.text k] =>
    match parseDecimal k with
    | some n => if n < 32 then some n else none
    | none => none
  | _ => none

/-- The operand of `.word` (R70). -/
def parseWordOperand : List Token → Option Word
  | [.text w] => parseWord w
  | _ => none

/-- The operands `out, in, len` of a stream pseudo-instruction (R71). -/
def parseStream : List Token → Option (Nat × Nat × Nat)
  | [.text o, .comma, .text i, .comma, .text l] =>
    match parseHex o, parseHex i, parseHex l with
    | some out, some inp, some len => some (out, inp, len)
    | _, _, _ => none
  | _ => none

/-- A line, by its mnemonic in capitals (R70, R71). -/
def parseTokens : List Token → Option AsmLine
  | .text m :: rest =>
    let m := m.map upperChar
    if m = ['K', 'E', 'Y', 'I', 'N', 'I', 'T'] then (parseKeyOperand rest).map fun k => .command (.keyinit k)
    else if m = ['E', 'N', 'C', 'B', 'L', 'K'] then (parseBlock rest).map fun p => .command (.encblk p)
    else if m = ['D', 'E', 'C', 'B', 'L', 'K'] then (parseBlock rest).map fun c => .command (.decblk c)
    else if m = ['R', 'D', 'S', 'K'] then (parseIndex rest).map fun k => .command (.rdsk k)
    else if m = ['R', 'D', 'C', 'K'] then (if rest = [] then some (.command .rdck) else none)
    else if m = ['.', 'W', 'O', 'R', 'D'] then (parseWordOperand rest).map .word
    else if m = ['I', 'N', 'I', 'T'] then (parseKeyOperand rest).map .init
    else if m = ['E', 'N', 'C', 'S', 'T', 'R', 'E', 'A', 'M'] then
      (parseStream rest).map fun x => .encstream x.1 x.2.1 x.2.2
    else if m = ['D', 'E', 'C', 'S', 'T', 'R', 'E', 'A', 'M'] then
      (parseStream rest).map fun x => .decstream x.1 x.2.1 x.2.2
    else if m = ['R', 'D', 'S', 'K', 'A', 'L', 'L'] then (if rest = [] then some .rdskall else none)
    else none
  | _ => none

/-- A line of text (R70), or none where it has not the form R70 gives. -/
def parseLine (cs : List Char) : Option AsmLine := parseTokens (tokenize [] cs)

/-- What the lines of a program make a host agent do, in order (R70: one command per line). -/
def programOps : List (List Char) → Option (List HostOp)
  | [] => some []
  | l :: ls =>
    match parseLine l, programOps ls with
    | some a, some ops => some (a.ops ++ ops)
    | _, _ => none

end Sys2Proof.Machine
end

