-- ==== Sys2Proof/Safety.lean ====
section
/-! DEFINITION. The terms in which claims are stated: the invariant of every run, sessions of commands, the CBC recurrence,
and the runs of a host agent that has the core to itself. -/

namespace Sys2Proof.Safety

open Sys2Proof.Machine

/-- `r` is the request that an agent with these operations presents for the first of them, and if that is a stream call, the
call has a whole block left and its buffers are host memory (spec/45_stream_host.md R145, R146, R153). -/
def presents (m : List Host.Cell) (todo : List HostOp) (r : Request) : Prop :=
  match todo with
  | [] => False
  | .command q :: _ => q = r
  | .stream c :: _ => r.cmd = c.cmd ∧ 8 ≤ c.len ∧ buffersOk m c = true

/-- The invariant that every step keeps. -/
structure Inv (s : State) : Prop where
  /-- Host memory keeps its canonical form. -/
  memory : Memory.wf s.mem
  /-- The subkey table, where it holds a value, is the expansion of some key: no command writes a host's value to it
  (spec/10_state.md R27, spec/44_readback.md R138). -/
  subkeys : ∀ S, s.S = some S → ∃ key, S = expand key
  /-- An error response carries 0 (spec/30_encoding.md R69). -/
  errorDout : ∀ r, s.response = some r → r.status ≠ .ok → r.dout = 0#64
  /-- The request in progress is the one its agent presented, and that agent presents no other one (R145). -/
  inProgress : ∀ f (ag : Agent), s.inProgress = some f → s.agents[f.agent]? = some ag →
    ag.waiting = none ∧ presents s.mem ag.todo f.req
  /-- A held request is the one its agent presents (spec/70_reset_and_hazards.md R190). -/
  held : ∀ (n : Nat) (ag : Agent) r, s.agents[n]? = some ag → ag.waiting = some r → presents s.mem ag.todo r

/-- One command run on its own: the state it leaves and the response it gives. -/
def perform (i : Instr) (s : State) : Option (State × Response) :=
  match exec i s with
  | .next t => t.response.map fun r => (t, r)
  | .fault _ => none
  | .refused _ => none

/-- A session of commands, one after the other: the state it leaves and the responses, in order. -/
def performAll : List Instr → State → Option (State × List Response)
  | [], s => some (s, [])
  | i :: is, s =>
    match perform i s with
    | none => none
    | some (t, r) => (performAll is t).map fun x => (x.1, r :: x.2)

/-- One request run on its own, legal or not: the state it leaves and the response it gives. -/
def issue (r : Request) (s : State) : Option (State × Response) :=
  match runRequest r s with
  | .next t => t.response.map fun resp => (t, resp)
  | .fault _ => none
  | .refused _ => none

/-- A session of requests, one after the other: the state it leaves and the responses, in order. -/
def issueAll : List Request → State → Option (State × List Response)
  | [], s => some (s, [])
  | r :: rs, s =>
    match issue r s with
    | none => none
    | some (t, resp) => (issueAll rs t).map fun x => (x.1, resp :: x.2)

/-- The request writes no chain vector, whatever the state: RDSK, with any index, RDCK, or an illegal word
(spec/10_state.md R29). -/
def leavesChain (r : Request) : Bool :=
  match decode r with
  | .illegal _ => true
  | .command (.keyinit _) => false
  | .command (.encblk _) => false
  | .command (.decblk _) => false
  | .command (.rdsk _) => true
  | .command .rdck => true

/-- The block that a request gives to ENCBLK or DECBLK, if it is one of the two. -/
def blockOf (r : Request) : Option Block :=
  match decode r with
  | .illegal _ => none
  | .command (.keyinit _) => none
  | .command (.encblk p) => some p
  | .command (.decblk c) => some c
  | .command (.rdsk _) => none
  | .command .rdck => none

/-- Of the responses of a session, those of its block commands. -/
def blockResponses (rs : List Request) (resps : List Response) : List Response :=
  (rs.zip resps).filterMap fun x => (blockOf x.1).map fun _ => x.2

/-- The CBC recurrence for encryption: `C_i = Encode(P_i xor C_{i-1}, S)` (spec/43_cbc_chain.md R120, R125). -/
def cbcEncrypt (S : SubkeyTable) : Block → List Block → List Block
  | _, [] => []
  | c, p :: ps => encodeBlock S (xorBlock p c) :: cbcEncrypt S (encodeBlock S (xorBlock p c)) ps

/-- The CBC recurrence for decryption: `P_i = Decode(C_i, S) xor C_{i-1}` (R120, R125). -/
def cbcDecrypt (S : SubkeyTable) : Block → List Block → List Block
  | _, [] => []
  | c, x :: xs => xorBlock (decodeBlock S x) c :: cbcDecrypt S x xs

/-- The last block of a list, or the block before it. -/
def lastBlock (c : Block) : List Block → Block
  | [] => c
  | x :: xs => lastBlock x xs

/-- The response of a block command that completed with OK. -/
def okBlock (x : Block) : Response := ⟨.ok, packBlock x⟩

/-- The chain vector that a session leaves, from the chain vector before it, the IV, the commands and their responses: the
ciphertext of the last successful ENCBLK or DECBLK, or the IV if a KEYINIT came after it (spec/10_state.md R30). -/
def chainAfter (iv : Block) : Block → List Instr → List Response → Block
  | ck, i :: is, r :: rs =>
    let ck' := match i with
      | .keyinit _ => iv
      | .encblk _ => unpackBlock r.dout
      | .decblk c => c
      | .rdsk _ => ck
      | .rdck => ck
    chainAfter iv ck' is rs
  | ck, _, _ => ck

/-- The blocks of a host buffer (spec/20_memory.md R44). -/
def readBlocks (m : List Host.Cell) (addr : Nat) : Nat → Option (List Block)
  | 0 => some []
  | n + 1 =>
    match memRead m addr 8, readBlocks m (addr + 8) n with
    | some v, some xs => some (unpackBlock v :: xs)
    | _, _ => none

/-- The events of `n` requests of agent 0, when no other agent and no reset comes between. -/
def soloEvents : Nat → List Event
  | 0 => []
  | n + 1 => .present 0 :: .complete :: soloEvents n

/-- `s` with one host agent, which has these operations to do and the core to itself, and these events to come. -/
def solo (todo : List HostOp) (events : List Event) (s : State) : State :=
  { s with inProgress := none, agents := [⟨todo, none, []⟩], schedule := events }

end Sys2Proof.Safety
end

