-- ==== Sys2Proof/Certificates/Slice0/Obligations.lean ====
section
/-! DEFINITION. The statements about this model, for the provers. Each docstring names the rule of spec/ it formalises. -/

open Sys2Proof Sys2Proof.Machine Sys2Proof.Safety

/-! ## Primitive operations -/

/-- R80: ADD32 is addition modulo `2^32`, with the corner cases, the laws and the example of the rule. -/
def Obligations.Add32IsModularAddition : Prop :=
  (∀ x y : Word, (add32 x y).toNat = (x.toNat + y.toNat) % 2 ^ 32) ∧
  (∀ x y : Word, add32 x y = add32 y x) ∧
  (∀ x y z : Word, add32 (add32 x y) z = add32 x (add32 y z)) ∧
  add32 0xFFFFFFFF#32 0x00000001#32 = 0#32 ∧ add32 0x80000000#32 0x80000000#32 = 0#32 ∧
  add32 Config.P32 Config.Q32 = 0x5618CB1C#32

/-- R81: SUB32 is subtraction modulo `2^32` and undoes ADD32. -/
def Obligations.Sub32UndoesAdd32 : Prop :=
  (∀ x y : Word, ((sub32 x y).toNat : Int) = ((x.toNat : Int) - (y.toNat : Int)) % 2 ^ 32) ∧
  (∀ x y : Word, sub32 (add32 x y) y = x) ∧ (∀ x : Word, sub32 x x = 0#32) ∧
  sub32 0#32 1#32 = 0xFFFFFFFF#32 ∧ sub32 0x9BBBD8C8#32 0x9BBBD8C9#32 = 0xFFFFFFFF#32

/-- R82: XOR32 is bitwise, with its corner cases and example. -/
def Obligations.Xor32IsBitwise : Prop :=
  (∀ (x y : Word) (n : Nat), (xor32 x y).getLsbD n = (x.getLsbD n ^^ y.getLsbD n)) ∧
  (∀ x : Word, xor32 x x = 0#32) ∧ (∀ x : Word, xor32 x 0#32 = x) ∧
  (∀ x y : Word, xor32 (xor32 x y) y = x) ∧ xor32 0x12345678#32 0x9ABCDEF0#32 = 0x88888888#32

/-- R83: ROTL32 bit by bit, the amount reduced to its low 5 bits, with the corner cases and examples. R85: an amount computed
from data is the low 5 bits of the 32-bit sum, which is the unbounded sum mod 32. -/
def Obligations.RotlMovesBitsLeft : Prop :=
  (∀ (x n : Word) (m : Nat), m < 32 →
    (rotl x n).getLsbD m = x.getLsbD ((m + 32 - (n.extractLsb' 0 5).toNat) % 32)) ∧
  (∀ x n : Word, n.extractLsb' 0 5 = 0#5 → rotl x n = x) ∧
  (∀ x n n' : Word, n.extractLsb' 0 5 = n'.extractLsb' 0 5 → rotl x n = rotl x n') ∧
  (∀ x n : Word, n.extractLsb' 0 5 ≠ 0#5 → rotl x n =
    (x <<< (n.extractLsb' 0 5).toNat) ||| (x >>> (32 - (n.extractLsb' 0 5).toNat))) ∧
  (∀ x : Word, rotl x 31#32 = rotr x 1#32) ∧
  (∀ n : Word, rotl 0#32 n = 0#32) ∧ (∀ n : Word, rotl 0xFFFFFFFF#32 n = 0xFFFFFFFF#32) ∧
  rotl 0x12345678#32 4#32 = 0x23456781#32 ∧ rotl 0x80000001#32 1#32 = 0x00000003#32 ∧
  (∀ x a b : Word, rotl x (add32 a b) = rotl x (BitVec.ofNat 32 ((a.toNat + b.toNat) % 32))) ∧
  (∀ a b : Word, rotl (xor32 a b) b = rotl (xor32 a b) ((b.extractLsb' 0 5).setWidth 32))

/-- R84: ROTR32 bit by bit, its corner cases and examples, and that it undoes ROTL32. -/
def Obligations.RotrUndoesRotl : Prop :=
  (∀ (x n : Word) (m : Nat), m < 32 →
    (rotr x n).getLsbD m = x.getLsbD ((m + (n.extractLsb' 0 5).toNat) % 32)) ∧
  (∀ x n : Word, n.extractLsb' 0 5 = 0#5 → rotr x n = x) ∧
  (∀ x n n' : Word, n.extractLsb' 0 5 = n'.extractLsb' 0 5 → rotr x n = rotr x n') ∧
  (∀ x n : Word, n.extractLsb' 0 5 ≠ 0#5 → rotr x n =
    (x >>> (n.extractLsb' 0 5).toNat) ||| (x <<< (32 - (n.extractLsb' 0 5).toNat))) ∧
  (∀ x : Word, rotr x 31#32 = rotl x 1#32) ∧
  (∀ n : Word, rotr 0#32 n = 0#32) ∧ (∀ n : Word, rotr 0xFFFFFFFF#32 n = 0xFFFFFFFF#32) ∧
  (∀ x n : Word, rotr (rotl x n) n = x) ∧
  rotr 0x12345678#32 4#32 = 0x81234567#32 ∧ rotr 0x80000001#32 1#32 = 0xC0000000#32

/-! ## Operand layout -/

/-- R41: byte `K[k]` is bits `8k+7 : 8k` of the key field, and both forms of `L[j]` agree. -/
def Obligations.KeyWordsAreLittleEndian : Prop :=
  (∀ (key : Key) (k n : Nat), n < 8 → (keyByte key k).getLsbD n = key.getLsbD (8 * k + n)) ∧
  (∀ (key : Key) (j : Nat), j < 4 → keyWord key j = key.extractLsb' (32 * j) 32) ∧
  (∀ (key : Key) (j : Fin 4), (keyWords key)[j] =
    (keyByte key (4 * j)).setWidth 32 ||| ((keyByte key (4 * j + 1)).setWidth 32 <<< 8)
      ||| ((keyByte key (4 * j + 2)).setWidth 32 <<< 16) ||| ((keyByte key (4 * j + 3)).setWidth 32 <<< 24))

/-- R43: a block field is `{B, A}`, in `req.din` and in `resp.dout` of ENCBLK and DECBLK, and the two directions undo each
other. -/
def Obligations.BlockFieldIsBThenA : Prop :=
  (∀ v : DWord, (unpackBlock v).a = v.extractLsb' 0 32 ∧ (unpackBlock v).b = v.extractLsb' 32 32) ∧
  (∀ x : Block, packBlock x = x.b ++ x.a) ∧
  (∀ x : Block, unpackBlock (packBlock x) = x) ∧ (∀ v : DWord, packBlock (unpackBlock v) = v) ∧
  (∀ key din, decode ⟨0x00000002#32, key, din⟩ = .command (.encblk (unpackBlock din))) ∧
  (∀ key din, decode ⟨0x00000003#32, key, din⟩ = .command (.decblk (unpackBlock din))) ∧
  (∀ (x : Block) (s : State) (S : SubkeyTable) (CK : Block), s.life = .keyed S CK →
    (∃ t, exec (.encblk x) s = .next t ∧ t.response = some ⟨.ok, packBlock (encodeBlock S (xorBlock x CK))⟩) ∧
    (∃ t, exec (.decblk x) s = .next t ∧ t.response = some ⟨.ok, packBlock (xorBlock (decodeBlock S x) CK)⟩))

/-- R40: no request reads or writes host memory; MemRead and MemWrite are little-endian, byte by byte, and MemWrite changes no other
byte. A byte that is not host memory has no value (log entry 7). -/
def Obligations.HostMemoryIsLittleEndian : Prop :=
  (∀ (r : Request) (s t : State) (m : List Host.Cell), runRequest r s = .next t →
    t.mem = s.mem ∧ runRequest r { s with mem := m } = .next { t with mem := m }) ∧
  (∀ (m : List Host.Cell) (addr n : Nat) (v : BitVec (8 * n)), memRead m addr n = some v →
    ∀ k, k < n → readByte m (addr + k) = some (v.extractLsb' (8 * k) 8)) ∧
  (∀ (m : List Host.Cell) (addr n : Nat), (∀ k, k < n → readByte m (addr + k) ≠ none) →
    ∃ v, memRead m addr n = some v) ∧
  (∀ (m m' : List Host.Cell) (addr n : Nat) (v : BitVec (8 * n)), memWrite m addr n v = some m' →
    (∀ k, k < n → readByte m' (addr + k) = some (v.extractLsb' (8 * k) 8)) ∧
    (∀ a, a < addr ∨ addr + n ≤ a → readByte m' a = readByte m a)) ∧
  (∀ (m : List Host.Cell) (addr n : Nat) (v : BitVec (8 * n)), (∀ k, k < n → readByte m (addr + k) ≠ none) →
    ∃ m', memWrite m addr n v = some m')

/-- R44: the bytes of a stream block, read as `req.din`, and `resp.dout` written back in the same layout; the driver's turn
and its end. -/
def Obligations.StreamBytesFormABlock : Prop :=
  (∀ (m : List Host.Cell) (addr : Nat) (v : DWord), memRead m addr 8 = some v →
    ∃ b0 b1 b2 b3 b4 b5 b6 b7 : Byte,
      readByte m addr = some b0 ∧ readByte m (addr + 1) = some b1 ∧ readByte m (addr + 2) = some b2 ∧
      readByte m (addr + 3) = some b3 ∧ readByte m (addr + 4) = some b4 ∧ readByte m (addr + 5) = some b5 ∧
      readByte m (addr + 6) = some b6 ∧ readByte m (addr + 7) = some b7 ∧
      unpackBlock v = ⟨b3 ++ b2 ++ b1 ++ b0, b7 ++ b6 ++ b5 ++ b4⟩) ∧
  (∀ (m m' : List Host.Cell) (addr : Nat) (x : Block), memWrite m addr 8 (packBlock x) = some m' →
    memRead m' addr 8 = some (packBlock x)) ∧
  (∀ (n : Nat) (ag : Agent) (c : StreamCall) (ops : List HostOp) (s : State) (din : DWord),
    ag.todo = .stream c :: ops → buffersOk s.mem c = true → 8 ≤ c.len → memRead s.mem c.inp 8 = some din →
    beginOp n ag s = .next (offer n ag ⟨c.cmd, 0#128, din⟩ s)) ∧
  (∀ (n : Nat) (ag : Agent) (c : StreamCall) (ops : List HostOp) (s : State) (dout : DWord) (m : List Host.Cell),
    s.agents[n]? = some ag → ag.todo = .stream c :: ops → memWrite s.mem c.out 8 dout = some m →
    deliver n ⟨.ok, dout⟩ s = .next (setAgent n { ag with todo := .stream c.advance :: ops } { s with mem := m })) ∧
  memRead [(0, 0x00#8), (1, 0x01#8), (2, 0x02#8), (3, 0x03#8), (4, 0x04#8), (5, 0x05#8), (6, 0x06#8), (7, 0x07#8)] 0 8 =
    some 0x0706050403020100#64

/-! ## Encoding -/

/-- A few command words written out from R59 decode to their commands, and neighbours of them do not decode. -/
def Obligations.WrittenOutWordsDecode : Prop :=
  (∀ key din, decode ⟨0x00000001#32, key, din⟩ = .command (.keyinit key)) ∧
  (∀ key, decode ⟨0x00000002#32, key, 0x0706050403020100#64⟩ = .command (.encblk ⟨0x03020100#32, 0x07060504#32⟩)) ∧
  (∀ key, decode ⟨0x00000003#32, key, 0x0706050403020100#64⟩ = .command (.decblk ⟨0x03020100#32, 0x07060504#32⟩)) ∧
  (∀ key din, decode ⟨0x00001904#32, key, din⟩ = .command (.rdsk 25)) ∧
  (∀ key din, decode ⟨0x00000005#32, key, din⟩ = .command .rdck) ∧
  (∀ key din, decode ⟨0x00000000#32, key, din⟩ = .illegal .reservedOp) ∧
  (∀ key din, decode ⟨0x00002004#32, key, din⟩ = .illegal .reservedBits) ∧
  (∀ key din, decode ⟨0x00000102#32, key, din⟩ = .illegal .indexNotZero)

/-- Decoding the encoding of a well-formed command gives the command back, with every operand at every value. -/
def Obligations.DecodeOfEncode : Prop :=
  ∀ i : Instr, i.wellFormed = true → decode (encode i) = .command i

/-- Every request that decodes is well formed, and carries its command's own word and operand fields. -/
def Obligations.EncodeOfDecode : Prop :=
  ∀ (r : Request) (i : Instr), decode r = .command i →
    i.wellFormed = true ∧ (encode i).cmd = r.cmd ∧
    (∀ key, i = .keyinit key → (encode i).key = r.key) ∧
    ((∃ x, i = .encblk x ∨ i = .decblk x) → (encode i).din = r.din)

/-- R59: a word decodes to a command exactly when it selects that command's row, with `IDX = w[12:8]` for RDSK; at most one
row matches any word. -/
def Obligations.CommandWordsAreTheTableRows : Prop :=
  opcodeRows = [⟨"KEYINIT", 0x00000001#32, 0xFFFFFFFF#32⟩, ⟨"ENCBLK", 0x00000002#32, 0xFFFFFFFF#32⟩,
    ⟨"DECBLK", 0x00000003#32, 0xFFFFFFFF#32⟩, ⟨"RDSK", 0x00000004#32, 0xFFFFE0FF#32⟩,
    ⟨"RDCK", 0x00000005#32, 0xFFFFFFFF#32⟩] ∧
  (∀ (row : OpcodeRow) (w : Word), row.selects w = true ↔ w &&& row.mask = row.pattern) ∧
  (∀ (r : Request) (i : Instr), decode r = .command i →
    ∃ row ∈ opcodeRows, row.mnemonic = mnemonic i ∧ row.selects r.cmd = true) ∧
  (∀ (r : Request) (row : OpcodeRow), row ∈ opcodeRows → row.selects r.cmd = true →
    ∃ i, decode r = .command i ∧ mnemonic i = row.mnemonic) ∧
  (∀ (w : Word) (row row' : OpcodeRow), row ∈ opcodeRows → row' ∈ opcodeRows →
    row.selects w = true → row'.selects w = true → row = row') ∧
  (∀ (r : Request) (k : Nat), decode r = .command (.rdsk k) → k = (r.cmd.extractLsb' 8 5).toNat)

/-- R63: the words that match no row are those with a reserved `OP`, a reserved bit set, or an index without RDSK; executing
one answers ERR_ILLEGAL_CMD and changes no state. -/
def Obligations.IllegalWordsAreRefused : Prop :=
  (∀ r : Request, (∃ why, decode r = .illegal why) ↔ ∀ row ∈ opcodeRows, row.selects r.cmd = false) ∧
  (∀ r : Request, (∃ why, decode r = .illegal why) ↔
    (opField r.cmd = 0x0#4 ∨ 0x6#4 ≤ opField r.cmd) ∨ (rsv0Field r.cmd ≠ 0#4 ∨ rsv1Field r.cmd ≠ 0#19) ∨
      (idxField r.cmd ≠ 0#5 ∧ opField r.cmd ≠ 0x4#4)) ∧
  (∀ (r : Request) (why : Illegal) (s : State), decode r = .illegal why →
    runRequest r s = .next { s with response := some ⟨.errIllegalCmd, 0#64⟩, inProgress := none })

/-- A field that the command does not use (R61) has no effect on any state or on the response (R55). -/
def Obligations.IgnoredFieldsHaveNoEffect : Prop :=
  ∀ (r r' : Request) (s : State), r.cmd = r'.cmd →
    (r.cmd = 0x00000001#32 → r.key = r'.key) →
    (r.cmd = 0x00000002#32 ∨ r.cmd = 0x00000003#32 → r.din = r'.din) →
    runRequest r s = runRequest r' s

/-- R68: the status codes, and that the reserved codes name no status. -/
def Obligations.StatusCodesAreAsListed : Prop :=
  statusCode .ok = 0x0#4 ∧ statusCode .errNotKeyed = 0x1#4 ∧ statusCode .errIllegalCmd = 0x2#4 ∧
  statusCode .errBadIndex = 0x3#4 ∧
  (∀ st, statusOfCode (statusCode st) = some st) ∧
  (∀ c : BitVec 4, statusOfCode c = none ↔ 0x4#4 ≤ c) ∧
  (∀ (r : Request) (s t : State) (resp : Response), runRequest r s = .next t → t.response = some resp →
    statusCode resp.status < 0x4#4)

/-! ## The commands -/

/-- R96: KEYINIT completes in every state, installs the whole expanded table, loads the IV, sets KEYED and answers OK, 0; it
changes nothing else. Its word with any other bit set is illegal. -/
def Obligations.KeyinitInstallsKey : Prop :=
  (∀ key din, decode ⟨0x00000001#32, key, din⟩ = .command (.keyinit key)) ∧
  (∀ (key : Key) (s : State), exec (.keyinit key) s =
    .next { s with
      life := .keyed (expand key) ⟨s.params.iv0, s.params.iv1⟩
      response := some ⟨.ok, 0#64⟩
      inProgress := none }) ∧
  (∀ (r : Request) (s : State), r.cmd.extractLsb' 0 4 = 0x1#4 → r.cmd ≠ 0x00000001#32 →
    runRequest r s = .next { s with response := some ⟨.errIllegalCmd, 0#64⟩, inProgress := none }) ∧
  (expand 0#128)[0] = 0x9BBBD8C8#32 ∧ (expand 0#128)[25] = 0x65046380#32

/-- R121: ENCBLK in the Keyed state returns `C = Encode(P xor CK, S)` and leaves it in CK; before KEYINIT it answers
ERR_NOT_KEYED; its word with any other bit set is illegal. It changes nothing else. -/
def Obligations.EncblkChainsAndEncodes : Prop :=
  (∀ key din, decode ⟨0x00000002#32, key, din⟩ =
    .command (.encblk ⟨din.extractLsb' 0 32, din.extractLsb' 32 32⟩)) ∧
  (∀ (p : Block) (s : State) (S : SubkeyTable) (CK : Block), s.life = .keyed S CK →
    exec (.encblk p) s =
      .next { s with
        life := .keyed S (encodeBlock S ⟨p.a ^^^ CK.a, p.b ^^^ CK.b⟩)
        response := some ⟨.ok, (encodeBlock S ⟨p.a ^^^ CK.a, p.b ^^^ CK.b⟩).b ++
          (encodeBlock S ⟨p.a ^^^ CK.a, p.b ^^^ CK.b⟩).a⟩
        inProgress := none }) ∧
  (∀ (p : Block) (s : State), s.life = .uninitialized → exec (.encblk p) s =
    .next { s with response := some ⟨.errNotKeyed, 0#64⟩, inProgress := none }) ∧
  (∀ (r : Request) (s : State), r.cmd.extractLsb' 0 4 = 0x2#4 → r.cmd ≠ 0x00000002#32 →
    runRequest r s = .next { s with response := some ⟨.errIllegalCmd, 0#64⟩, inProgress := none }) ∧
  (∀ (s : State), s.life = .keyed (expand 0#128) ⟨0#32, 0#32⟩ → exec (.encblk ⟨0#32, 0#32⟩) s =
    .next { s with
      life := .keyed (expand 0#128) ⟨0xEEDBA521#32, 0x6D8F4B15#32⟩
      response := some ⟨.ok, 0x6D8F4B15EEDBA521#64⟩
      inProgress := none })

/-- R123 and R124: DECBLK in the Keyed state returns `Decode(C, S) xor CK` with the old CK, and leaves the input ciphertext in
CK; the two error cases as for ENCBLK. It changes nothing else. -/
def Obligations.DecblkDecodesAndCaptures : Prop :=
  (∀ key din, decode ⟨0x00000003#32, key, din⟩ =
    .command (.decblk ⟨din.extractLsb' 0 32, din.extractLsb' 32 32⟩)) ∧
  (∀ (c : Block) (s : State) (S : SubkeyTable) (CK : Block), s.life = .keyed S CK →
    exec (.decblk c) s =
      .next { s with
        life := .keyed S c
        response := some ⟨.ok, ((decodeBlock S c).b ^^^ CK.b) ++ ((decodeBlock S c).a ^^^ CK.a)⟩
        inProgress := none }) ∧
  (∀ (c : Block) (s : State), s.life = .uninitialized → exec (.decblk c) s =
    .next { s with response := some ⟨.errNotKeyed, 0#64⟩, inProgress := none }) ∧
  (∀ (r : Request) (s : State), r.cmd.extractLsb' 0 4 = 0x3#4 → r.cmd ≠ 0x00000003#32 →
    runRequest r s = .next { s with response := some ⟨.errIllegalCmd, 0#64⟩, inProgress := none }) ∧
  (∀ (s : State), s.life = .keyed (expand 0#128) ⟨0#32, 0#32⟩ →
    exec (.decblk ⟨0xEEDBA521#32, 0x6D8F4B15#32⟩) s =
      .next { s with
        life := .keyed (expand 0#128) ⟨0xEEDBA521#32, 0x6D8F4B15#32⟩
        response := some ⟨.ok, 0#64⟩
        inProgress := none })

/-- R135 and R136: RDSK in the Keyed state returns the subkey zero-extended, or ERR_BAD_INDEX for an index of 26 to 31;
before KEYINIT it answers ERR_NOT_KEYED; with a reserved bit set its word is illegal. It writes no register. -/
def Obligations.RdskReadsOneSubkey : Prop :=
  (∀ (w : Word) key din, w &&& 0xFFFFE0FF#32 = 0x00000004#32 →
    decode ⟨w, key, din⟩ = .command (.rdsk (w.extractLsb' 8 5).toNat)) ∧
  (∀ (k : Nat) (hk : k < 26) (s : State) (S : SubkeyTable) (CK : Block), s.life = .keyed S CK →
    exec (.rdsk k) s = .next { s with response := some ⟨.ok, 0#32 ++ S[k]⟩, inProgress := none }) ∧
  (∀ (k : Nat) (s : State) (S : SubkeyTable) (CK : Block), 26 ≤ k → s.life = .keyed S CK →
    exec (.rdsk k) s = .next { s with response := some ⟨.errBadIndex, 0#64⟩, inProgress := none }) ∧
  (∀ (k : Nat) (s : State), s.life = .uninitialized →
    exec (.rdsk k) s = .next { s with response := some ⟨.errNotKeyed, 0#64⟩, inProgress := none }) ∧
  (∀ (r : Request) (s : State), r.cmd.extractLsb' 0 4 = 0x4#4 →
    (r.cmd.extractLsb' 4 4 ≠ 0#4 ∨ r.cmd.extractLsb' 13 19 ≠ 0#19) →
    runRequest r s = .next { s with response := some ⟨.errIllegalCmd, 0#64⟩, inProgress := none }) ∧
  (∀ (s : State) (CK : Block) key din, s.life = .keyed (expand 0#128) CK →
    runRequest ⟨0x00001904#32, key, din⟩ s =
      .next { s with response := some ⟨.ok, 0x0000000065046380#64⟩, inProgress := none })

/-- R137: RDCK in the Keyed state returns `{CK[1], CK[0]}`; before KEYINIT it answers ERR_NOT_KEYED; its word with any other
bit set is illegal. It writes no register, so it does not advance the chain. -/
def Obligations.RdckReadsTheChain : Prop :=
  (∀ key din, decode ⟨0x00000005#32, key, din⟩ = .command .rdck) ∧
  (∀ (s : State) (S : SubkeyTable) (CK : Block), s.life = .keyed S CK →
    exec .rdck s = .next { s with response := some ⟨.ok, CK.b ++ CK.a⟩, inProgress := none }) ∧
  (∀ (s : State), s.life = .uninitialized →
    exec .rdck s = .next { s with response := some ⟨.errNotKeyed, 0#64⟩, inProgress := none }) ∧
  (∀ (r : Request) (s : State), r.cmd.extractLsb' 0 4 = 0x5#4 → r.cmd ≠ 0x00000005#32 →
    runRequest r s = .next { s with response := some ⟨.errIllegalCmd, 0#64⟩, inProgress := none }) ∧
  (∀ (key : Key) (s t : State), exec (.keyinit key) s = .next t →
    exec .rdck t = .next { t with response := some ⟨.ok, s.params.iv1 ++ s.params.iv0⟩, inProgress := none }) ∧
  (∀ (p : Block) (s t : State), s.KEYED = true → exec (.encblk p) s = .next t → exec .rdck t = .next t) ∧
  (∀ (c : Block) (s t : State), s.KEYED = true → exec (.decblk c) s = .next t →
    exec .rdck t = .next { t with response := some ⟨.ok, c.b ++ c.a⟩ }) ∧
  (∀ s t u v : State, s.params = ⟨0#32, 0#32⟩ → exec (.keyinit 0#128) s = .next t →
    exec (.encblk ⟨0#32, 0#32⟩) t = .next u → exec .rdck u = .next v → v.response = some ⟨.ok, 0x6D8F4B15EEDBA521#64⟩)

/-- R49: which commands can be repeated without effect. Repeating ENCBLK or DECBLK gives a different result for some input. -/
def Obligations.WhichCommandsAreIdempotent : Prop :=
  (∀ (i : Instr) (s t u : State), (i = .rdck ∨ ∃ k, i = .rdsk k) → exec i s = .next t → exec i t = .next u →
    t.life = s.life ∧ u = t) ∧
  (∃ (s t u : State) (p : Block), exec (.encblk p) s = .next t ∧ exec (.encblk p) t = .next u ∧
    s.KEYED = true ∧ t.CK ≠ s.CK ∧ t.response ≠ u.response) ∧
  (∃ (s t u : State) (c : Block), exec (.decblk c) s = .next t ∧ exec (.decblk c) t = .next u ∧
    s.KEYED = true ∧ t.CK ≠ s.CK ∧ t.response ≠ u.response) ∧
  (∀ (key : Key) (s t u : State), exec (.keyinit key) s = .next t → exec (.keyinit key) t = .next u → u = t) ∧
  (∀ (i : Instr) (s t : State) (resp : Response), exec i s = .next t → t.response = some resp → resp.status ≠ .ok →
    t.life = s.life)

/-- What each kind of command leaves unchanged: all of the host's side and the parameters for every request; the subkey table
but for KEYINIT; the chain vector but for KEYINIT, ENCBLK and DECBLK; KEYED but for KEYINIT; every byte of host memory. -/
def Obligations.CommandFrames : Prop :=
  ∀ (i : Instr) (s t : State), exec i s = .next t →
    t.params = s.params ∧ t.agents = s.agents ∧ t.schedule = s.schedule ∧
    (∀ a, readByte t.mem a = readByte s.mem a) ∧
    ((∀ key, i ≠ .keyinit key) → t.S = s.S ∧ t.KEYED = s.KEYED) ∧
    ((∀ key, i ≠ .keyinit key) → (∀ x, i ≠ .encblk x ∧ i ≠ .decblk x) → t.CK = s.CK)

/-! ## Errors -/

/-- R56: every accepted request produces exactly one response, and the command is then over; the core stops on none (R161). -/
def Obligations.EveryRequestIsAnswered : Prop :=
  ∀ (r : Request) (s : State), ∃ (t : State) (resp : Response), runRequest r s = .next t ∧
    t.response = some resp ∧ t.inProgress = none

/-- R162: an error answers `(code, 0)` and leaves every state element unchanged. -/
def Obligations.ErrorsChangeNothing : Prop :=
  ∀ (r : Request) (s t : State) (resp : Response), runRequest r s = .next t → t.response = some resp →
    resp.status ≠ .ok →
    resp.dout = 0#64 ∧ t = { s with response := some ⟨resp.status, 0#64⟩, inProgress := none } ∧
      t.KEYED = s.KEYED ∧ t.S = s.S ∧ t.CK = s.CK

/-- R163: ERR_NOT_KEYED is the answer exactly to a legal command other than KEYINIT while KEYED is 0. -/
def Obligations.NotKeyedError : Prop :=
  (∀ (i : Instr) (s : State), s.KEYED = false → (∀ key, i ≠ .keyinit key) →
    exec i s = .next { s with response := some ⟨.errNotKeyed, 0#64⟩, inProgress := none }) ∧
  (∀ (r : Request) (s t : State) (dout : DWord), runRequest r s = .next t →
    t.response = some ⟨.errNotKeyed, dout⟩ →
    dout = 0#64 ∧ s.KEYED = false ∧ ∃ i, decode r = .command i ∧ ∀ key, i ≠ .keyinit key) ∧
  statusCode .errNotKeyed = 0x1#4

/-- R164: ERR_ILLEGAL_CMD is the answer exactly to a word that matches no row of R59, in both states. -/
def Obligations.IllegalCommandError : Prop :=
  (∀ (r : Request) (s : State), (∀ row ∈ opcodeRows, row.selects r.cmd = false) →
    runRequest r s = .next { s with response := some ⟨.errIllegalCmd, 0#64⟩, inProgress := none }) ∧
  (∀ (r : Request) (s t : State) (dout : DWord), runRequest r s = .next t →
    t.response = some ⟨.errIllegalCmd, dout⟩ →
    dout = 0#64 ∧ ∀ row ∈ opcodeRows, row.selects r.cmd = false) ∧
  statusCode .errIllegalCmd = 0x2#4

/-- R165: ERR_BAD_INDEX is the answer exactly to RDSK with an index of 26 to 31 while KEYED is 1. -/
def Obligations.BadIndexError : Prop :=
  (∀ (r : Request) (k : Nat) (s : State), decode r = .command (.rdsk k) → 26 ≤ k → s.KEYED = true →
    runRequest r s = .next { s with response := some ⟨.errBadIndex, 0#64⟩, inProgress := none }) ∧
  (∀ (r : Request) (s t : State) (dout : DWord), runRequest r s = .next t →
    t.response = some ⟨.errBadIndex, dout⟩ →
    dout = 0#64 ∧ s.KEYED = true ∧ ∃ k, decode r = .command (.rdsk k) ∧ 26 ≤ k ∧ k ≤ 31) ∧
  statusCode .errBadIndex = 0x3#4

/-- R166: the first check that fails gives the code, in the order illegal, not keyed, bad index. -/
def Obligations.ErrorPriority : Prop :=
  (∀ (r : Request) (s t : State) (resp : Response), runRequest r s = .next t → t.response = some resp →
    ((∃ why, decode r = .illegal why) → resp.status = .errIllegalCmd) ∧
    (∀ i, decode r = .command i → s.KEYED = false → (∀ key, i ≠ .keyinit key) → resp.status = .errNotKeyed) ∧
    (∀ k, decode r = .command (.rdsk k) → s.KEYED = true → 26 ≤ k → resp.status = .errBadIndex) ∧
    (∀ i, decode r = .command i → (s.KEYED = true ∨ ∃ key, i = .keyinit key) → (∀ k, i = .rdsk k → k < 26) →
      resp.status = .ok)) ∧
  (∀ (s : State), s.KEYED = false →
    exec (.rdsk 26) s = .next { s with response := some ⟨.errNotKeyed, 0#64⟩, inProgress := none }) ∧
  (∀ (s : State) key din, runRequest ⟨0x00000102#32, key, din⟩ s =
    .next { s with response := some ⟨.errIllegalCmd, 0#64⟩, inProgress := none })

/-- R167: the request after an error runs exactly as if the erroneous one had never been issued. -/
def Obligations.ErrorsAreNotSticky : Prop :=
  ∀ (r r' : Request) (s t : State) (resp : Response), runRequest r s = .next t → t.response = some resp →
    resp.status ≠ .ok → runRequest r' t = runRequest r' s

/-! ## Key schedule and block cipher -/

/-- R92: the table before mixing in closed form, with the values the rule lists. -/
def Obligations.MagicTableClosedForm : Prop :=
  (∀ i : Fin 26, magicTable[i].toNat = (0xB7E15163 + i.val * 0x9E3779B9) % 2 ^ 32) ∧
  magicTable[0] = 0xB7E15163#32 ∧ magicTable[1] = 0x5618CB1C#32 ∧ magicTable[2] = 0xF45044D5#32 ∧
  magicTable[25] = 0x2B4C3474#32

/-- R93: the order within one mixing iteration, the indices of iteration `n`, and how often each word is mixed. -/
def Obligations.MixingOrderAndIndices : Prop :=
  (∀ m : Mixing, (mixStep m).a = rotl (m.S[m.i] + m.a + m.b) 3#32 ∧
    (mixStep m).S = m.S.set m.i (mixStep m).a ∧
    (mixStep m).b = rotl (m.L[m.j] + (mixStep m).a + m.b) ((mixStep m).a + m.b) ∧
    (mixStep m).L = m.L.set m.j (mixStep m).b) ∧
  (∀ (key : Key) (n : Nat), (mixTimes n (mixStart key)).i.val = n % 26 ∧ (mixTimes n (mixStart key)).j.val = n % 4) ∧
  (∀ i : Fin 26, ((List.range 78).filter fun n => n % 26 == i.val).length = 3) ∧
  (∀ j : Fin 4, ((List.range 78).filter fun n => n % 4 == j.val).length = if j.val < 2 then 20 else 19)

/-- R91 step by step: the table of step 3, the key words, and 78 iterations from zero accumulators and indices. -/
def Obligations.ExpandIsSeventyEightIterations : Prop :=
  (∀ key : Key, expand key = (mixTimes 78 ⟨magicTable, keyWords key, 0#32, 0#32, 0, 0⟩).S) ∧
  magicTable[0] = 0xB7E15163#32 ∧
  (∀ (i : Nat) (hi : i + 1 < 26), magicTable[i + 1] = magicTable[i] + 0x9E3779B9#32) ∧
  (∀ (key : Key) (j : Fin 4), (keyWords key)[j] = key.extractLsb' (32 * j.val) 32) ∧
  (∀ m : Mixing, mixTimes 0 m = m) ∧
  (∀ (n : Nat) (m : Mixing), mixTimes (n + 1) m = mixStep (mixTimes n m)) ∧
  (∀ (m : Mixing) (a b : Word), a = rotl (m.S[m.i] + m.a + m.b) 3#32 → b = rotl (m.L[m.j] + a + m.b) (a + m.b) →
    mixStep m = ⟨m.S.set m.i a, m.L.set m.j b, a, b, m.i + 1, m.j + 1⟩)

/-- R110: Decode and Encode undo each other for every block and every table, so Encode is a bijection. -/
def Obligations.DecodeInvertsEncode : Prop :=
  (∀ (S : SubkeyTable) (x : Block), decodeBlock S (encodeBlock S x) = x) ∧
  (∀ (S : SubkeyTable) (y : Block), encodeBlock S (decodeBlock S y) = y) ∧
  (∀ S : SubkeyTable, Function.Bijective (encodeBlock S))

/-- R107 and R111: the worked values for the key of 16 zero bytes. -/
def Obligations.WorkedBlockValues : Prop :=
  whiten (expand 0#128) ⟨0#32, 0#32⟩ = ⟨0x9BBBD8C8#32, 0x1A37F7FB#32⟩ ∧
  encodeRounds (expand 0#128) [0] (whiten (expand 0#128) ⟨0#32, 0#32⟩) = ⟨0xE3054A3E#32, 0xC4590FF6#32⟩ ∧
  encodeRounds (expand 0#128) [0, 1] (whiten (expand 0#128) ⟨0#32, 0#32⟩) = ⟨0xE302129B#32, 0x91865BEE#32⟩ ∧
  encodeBlock (expand 0#128) ⟨0#32, 0#32⟩ = ⟨0xEEDBA521#32, 0x6D8F4B15#32⟩ ∧
  decodeBlock (expand 0#128) ⟨0xEEDBA521#32, 0x6D8F4B15#32⟩ = ⟨0#32, 0#32⟩ ∧
  decodeBlock (expand 0#128) ⟨0#32, 0#32⟩ = ⟨0x48E56C13#32, 0x9616F90F#32⟩

/-! ## The chain -/

/-- R125: from KEYINIT, a sequence of ENCBLK, or of DECBLK, returns the standard CBC recurrence from the IV, also with any
requests that do not write CK (RDSK with any index, RDCK, illegal words) before, between and after the block commands. -/
def Obligations.CbcRecurrence : Prop :=
  ∀ (key : Key) (s : State) (xs : List Block),
    (∃ t, performAll (.keyinit key :: xs.map .encblk) s =
      some (t, ⟨.ok, 0#64⟩ :: (cbcEncrypt (expand key) ⟨s.params.iv0, s.params.iv1⟩ xs).map okBlock)) ∧
    (∃ t, performAll (.keyinit key :: xs.map .decblk) s =
      some (t, ⟨.ok, 0#64⟩ :: (cbcDecrypt (expand key) ⟨s.params.iv0, s.params.iv1⟩ xs).map okBlock)) ∧
    (∀ (k : Request) (rs : List Request), decode k = .command (.keyinit key) →
      (∀ r ∈ rs, leavesChain r = true ∨ ∃ p, decode r = .command (.encblk p)) →
      ∃ t resps, issueAll (k :: rs) s = some (t, ⟨.ok, 0#64⟩ :: resps) ∧ resps.length = rs.length ∧
        blockResponses rs resps =
          (cbcEncrypt (expand key) ⟨s.params.iv0, s.params.iv1⟩ (rs.filterMap blockOf)).map okBlock) ∧
    (∀ (k : Request) (rs : List Request), decode k = .command (.keyinit key) →
      (∀ r ∈ rs, leavesChain r = true ∨ ∃ c, decode r = .command (.decblk c)) →
      ∃ t resps, issueAll (k :: rs) s = some (t, ⟨.ok, 0#64⟩ :: resps) ∧ resps.length = rs.length ∧
        blockResponses rs resps =
          (cbcDecrypt (expand key) ⟨s.params.iv0, s.params.iv1⟩ (rs.filterMap blockOf)).map okBlock)

/-- R126: what ENCBLK turned plaintexts into, DECBLK turns back after a new KEYINIT with the same key on a core with the same
IV; without the new KEYINIT the round trip fails for some key and block. -/
def Obligations.CbcRoundTrip : Prop :=
  (∀ (key : Key) (s t u : State) (ps cs : List Block), s.params = u.params →
    performAll (.keyinit key :: ps.map .encblk) s = some (t, ⟨.ok, 0#64⟩ :: cs.map okBlock) →
    ∃ t', performAll (.keyinit key :: cs.map .decblk) u = some (t', ⟨.ok, 0#64⟩ :: ps.map okBlock)) ∧
  (∃ (key : Key) (s t : State) (p c q : Block),
    performAll [.keyinit key, .encblk p, .decblk c] s = some (t, [⟨.ok, 0#64⟩, okBlock c, okBlock q]) ∧ q ≠ p)

/-- R128: an error `e` in one ciphertext block of a DECBLK sequence changes that block's plaintext to
`Decode(C_i', S) xor C_{i-1}`, flips exactly the bits of `e` in the next one, and changes no other. -/
def Obligations.ErrorPropagation : Prop :=
  ∀ (s : State) (S : SubkeyTable) (ck : Block) (pre post : List Block) (x y e : Block), s.life = .keyed S ck →
    ∃ (t t' : State) (ppre ppost : List Block) (px px' py : Block),
      performAll ((pre ++ x :: y :: post).map .decblk) s = some (t, (ppre ++ px :: py :: ppost).map okBlock) ∧
      performAll ((pre ++ xorBlock x e :: y :: post).map .decblk) s =
        some (t', (ppre ++ px' :: xorBlock py e :: ppost).map okBlock) ∧
      ppre.length = pre.length ∧
      px' = xorBlock (decodeBlock S (xorBlock x e)) (lastBlock ck pre)

/-- R30: after any session from a keyed core, CK is the ciphertext of the last successful block command since the last
KEYINIT, or the IV. So the two directions form one chain (R127). -/
def Obligations.ChainVectorIsLastCiphertext : Prop :=
  ∀ (is : List Instr) (s t : State) (ck : Block) (rs : List Response), s.CK = some ck →
    performAll is s = some (t, rs) →
    t.KEYED = true ∧ t.CK = some (chainAfter ⟨s.params.iv0, s.params.iv1⟩ ck is rs)

/-! ## Reset, the port and one step -/

/-- R180: the state after reset, and what reset does not change. -/
def Obligations.ResetState : Prop :=
  State.reset.KEYED = false ∧ State.reset.S = none ∧ State.reset.CK = none ∧ State.reset.inProgress = none ∧
  (∀ s : State, (resetCore s).KEYED = false ∧ (resetCore s).S = none ∧ (resetCore s).CK = none ∧
    (resetCore s).inProgress = none ∧ (resetCore s).params = s.params)

/-- R181: reset, asserted at any time, gives the state of R180; a command in progress is abandoned: none of its writes is kept
and no agent receives its response. That the agents keep their operations, the memory and the rest of the
schedule, and that the last response is gone, is the model's choice (log entries 5, 6 and 11). -/
def Obligations.ResetAbandonsTheCommand : Prop :=
  ∀ (s : State) (rest : List Event), s.schedule = .reset :: rest →
    ∃ t, step s = .next t ∧ t.KEYED = false ∧ t.S = none ∧ t.CK = none ∧ t.inProgress = none ∧ t.response = none ∧
      t.params = s.params ∧ t.agents = s.agents ∧ t.mem = s.mem ∧ t.schedule = rest

/-- After reset, and whenever nothing is in progress or to come, the core waits, idle (R182). That nothing is to come after
reset, and that a completion with nothing in progress does nothing, is the model's choice (log entries 4 and 5). -/
def Obligations.IdleCoreWaits : Prop :=
  step State.reset = .next State.reset ∧
  (∀ s : State, s.schedule = [] → s.inProgress = none → step s = .next s) ∧
  (∀ (s : State) (rest : List Event), s.schedule = .complete :: rest → s.inProgress = none →
    step s = .next { s with schedule := rest })

/-- The completion step runs exactly the decoded command, at the state with this event taken, and hands the response to the
agent that asked; a word that does not decode answers ERR_ILLEGAL_CMD. The same where no event is left (log entry 5). What
the agent does with the response is `deliver`, with the model's choices of log entries 4, 15 and 16. -/
def Obligations.StepRunsTheDecodedCommand : Prop :=
  (∀ (s t : State) (f : InFlight) (rest : List Event) (i : Instr) (resp : Response),
    s.schedule = .complete :: rest → s.inProgress = some f → decode f.req = .command i →
    exec i { s with schedule := rest } = .next t → t.response = some resp → step s = deliver f.agent resp t) ∧
  (∀ (s t : State) (f : InFlight) (i : Instr) (resp : Response),
    s.schedule = [] → s.inProgress = some f → decode f.req = .command i →
    exec i s = .next t → t.response = some resp → step s = deliver f.agent resp t) ∧
  (∀ (s : State) (f : InFlight) (rest : List Event) (why : Illegal),
    s.schedule = .complete :: rest → s.inProgress = some f → decode f.req = .illegal why →
    step s = deliver f.agent ⟨.errIllegalCmd, 0#64⟩
      { s with schedule := rest, response := some ⟨.errIllegalCmd, 0#64⟩, inProgress := none })

/-- A request placed as the next one is run by the very next step, whatever the state. How it is placed is the model's choice
(log entries 4 and 9). -/
def Obligations.PlacedWordRunsNext : Prop :=
  ∀ (s t : State) (nbits w : Nat) (i : Instr), decodeTableWord nbits w = some i →
    exec i { s with inProgress := some ⟨s.agents.length, requestOfNumber nbits w⟩ } = .next t →
    step (s.withFetchWord nbits w) = .next t

/-- R190: an idle core accepts the request an agent presents, all three fields together (R55); a busy core holds the
requester, changes nothing else and does not refuse it. The form of the host's side is the model's choice (log entries 4, 5
and 13). -/
def Obligations.AcceptWhenIdleHoldWhenBusy : Prop :=
  (∀ (s : State) (n : Nat) (rest : List Event) (ag : Agent) (r : Request) (ops : List HostOp),
    s.schedule = .present n :: rest → s.agents[n]? = some ag → ag.waiting = none → ag.todo = .command r :: ops →
    s.inProgress = none →
    ∃ t, step s = .next t ∧ t.inProgress = some ⟨n, r⟩ ∧ t.life = s.life ∧ t.response = s.response ∧
      t.mem = s.mem ∧ t.agents = s.agents) ∧
  (∀ (s : State) (n : Nat) (rest : List Event) (ag : Agent) (r : Request) (f : InFlight) (ops : List HostOp),
    s.schedule = .present n :: rest → s.agents[n]? = some ag → ag.waiting = none → ag.todo = .command r :: ops →
    s.inProgress = some f → f.agent ≠ n →
    ∃ t, step s = .next t ∧ t.inProgress = s.inProgress ∧ t.life = s.life ∧ t.response = s.response ∧
      t.mem = s.mem ∧ t.agents = s.agents.set n { ag with waiting := some r }) ∧
  (∀ (s : State) (n : Nat) (rest : List Event) (ag : Agent) (r : Request),
    s.schedule = .present n :: rest → s.agents[n]? = some ag → ag.waiting = some r → s.inProgress = none →
    ∃ t, step s = .next t ∧ t.inProgress = some ⟨n, r⟩ ∧ t.life = s.life ∧ t.response = s.response ∧
      t.mem = s.mem ∧ t.agents = s.agents.set n { ag with waiting := none })

/-- R22: only a KEYINIT that completes in this step, with OK, sets KEYED, and only reset clears it. -/
def Obligations.WhoWritesKeyed : Prop :=
  ∀ s t : State, step s = .next t →
    (s.KEYED = false → t.KEYED = true → ∃ f key, s.inProgress = some f ∧ decode f.req = .command (.keyinit key) ∧
      t.inProgress = none ∧ t.response = some ⟨.ok, 0#64⟩) ∧
    (s.KEYED = true → t.KEYED = false → ∃ rest, s.schedule = .reset :: rest)

/-- R27: only KEYINIT writes the subkey table, all of it, with `Expand(key)`; reset leaves it without a value. -/
def Obligations.WhoWritesTheSubkeys : Prop :=
  ∀ s t : State, step s = .next t → t.S ≠ s.S →
    (∃ f key, s.inProgress = some f ∧ decode f.req = .command (.keyinit key) ∧ t.S = some (expand key)) ∨
    (∃ rest, s.schedule = .reset :: rest ∧ t.S = none)

/-- R29: the writers of the chain vector and what each writes; a command that ends in an error writes nothing; reset leaves it
without a value (R180). No step changes the parameters that KEYINIT loads (R12, R34). -/
def Obligations.WhoWritesTheChain : Prop :=
  (∀ s t : State, step s = .next t → t.CK ≠ s.CK →
    (∃ f key, s.inProgress = some f ∧ decode f.req = .command (.keyinit key) ∧
      t.response = some ⟨.ok, 0#64⟩ ∧ t.CK = some ⟨s.params.iv0, s.params.iv1⟩) ∨
    (∃ f p dout, s.inProgress = some f ∧ decode f.req = .command (.encblk p) ∧
      t.response = some ⟨.ok, dout⟩ ∧ t.CK = some (unpackBlock dout)) ∨
    (∃ f c dout, s.inProgress = some f ∧ decode f.req = .command (.decblk c) ∧
      t.response = some ⟨.ok, dout⟩ ∧ t.CK = some c) ∨
    (∃ rest, s.schedule = .reset :: rest ∧ t.CK = none)) ∧
  (∀ s t : State, step s = .next t → t.params = s.params)

/-- The invariant of every run is kept by every step. Its clauses about the host's side are the model's choice (log entries 5,
7, 8 and 13). -/
def Obligations.StepKeepsInvariant : Prop :=
  ∀ s t : State, Inv s → step s = .next t → Inv t

/-- The invariant holds after reset. -/
def Obligations.ResetHasInvariant : Prop :=
  Inv State.reset

/-- The one thing that stops the machine is a stream call whose buffers are not host memory (R153), when its agent presents
it (log entries 7 and 8 for the form). No command and no response does. -/
def Obligations.OnlyBadBuffersStop : Prop :=
  ∀ s : State, Inv s →
    (∃ t, step s = .next t) ∨
    (∃ (n : Nat) (rest : List Event) (ag : Agent) (c : StreamCall) (ops : List HostOp),
      s.schedule = .present n :: rest ∧ s.agents[n]? = some ag ∧ ag.todo = .stream c :: ops ∧
      buffersOk s.mem c = false ∧ step s = .refused (.bufferNotHostMemory c))

/-- Every accepted request gets its response, at its completion step or, where no event is left, at the next step (R196; that
the schedule ends is log entry 5). -/
def Obligations.AcceptedRequestCompletes : Prop :=
  ∀ (s : State) (f : InFlight), Inv s → s.inProgress = some f →
    (s.schedule = [] ∨ ∃ rest, s.schedule = .complete :: rest) →
    ∃ (t : State) (resp : Response), step s = .next t ∧ t.inProgress = none ∧ t.response = some resp

/-- A host agent that has the core to itself gets, for its commands, the responses of the session, and leaves the core as the
session does. The form of the host's side is the model's choice (log entries 4 and 5), and so is that the agent goes on after
an error status (log entry 16). -/
def Obligations.SoloAgentRunsTheSession : Prop :=
  ∀ (is : List Instr) (s t : State) (rs : List Response) (rest : List Event), (∀ i ∈ is, i.wellFormed = true) →
    performAll is s = some (t, rs) → is ≠ [] →
    Host.Core.run core (2 * is.length)
      (solo (is.map fun i => .command (encode i)) (soloEvents is.length ++ rest) s) =
    .next { t with agents := [⟨[], none, rs.map .response⟩], schedule := rest }

/-! ## The stream driver -/

/-- R146 to R149 on a keyed core, in one direction or the other, with the output buffer equal to the input buffer or apart from
it: `floor(len / 8)` blocks go through the CBC recurrence from CK, the trailing bytes and every other byte keep their values,
CK is the last ciphertext block, and the call returns OK. The form of the host's side is the model's choice (log entries 5, 7,
8 and 15). -/
def Obligations.StreamOnKeyedCore : Prop :=
  ∀ (s : State) (S : SubkeyTable) (CK : Block) (c : StreamCall) (rest : List Event),
    s.life = .keyed S CK → buffersOk s.mem c = true →
    (c.out = c.inp ∨ c.out + c.len ≤ c.inp ∨ c.inp + c.len ≤ c.out) →
    ∃ (t : State) (xs ys : List Block),
      Host.Core.run core (2 * (c.len / 8) + 1) (solo [.stream c] (soloEvents (c.len / 8) ++ .present 0 :: rest) s) =
        .next t ∧
      readBlocks s.mem c.inp (c.len / 8) = some xs ∧ readBlocks t.mem c.out (c.len / 8) = some ys ∧
      (c.dir = .enc → ys = cbcEncrypt S CK xs ∧ t.life = .keyed S (lastBlock CK ys)) ∧
      (c.dir = .dec → ys = cbcDecrypt S CK xs ∧ t.life = .keyed S (lastBlock CK xs)) ∧
      (∀ a, a < c.out ∨ c.out + 8 * (c.len / 8) ≤ a → readByte t.mem a = readByte s.mem a) ∧
      t.agents = [⟨[], none, [.returned .ok]⟩] ∧ t.schedule = rest

/-- R150: a call with fewer than 8 bytes issues no command, reads and writes no bytes, leaves CK unchanged and returns OK. -/
def Obligations.ShortStreamDoesNothing : Prop :=
  ∀ (s : State) (n : Nat) (rest : List Event) (ag : Agent) (c : StreamCall) (ops : List HostOp),
    s.schedule = .present n :: rest → s.agents[n]? = some ag → ag.waiting = none → ag.todo = .stream c :: ops →
    (∀ f, s.inProgress = some f → f.agent ≠ n) → buffersOk s.mem c = true → c.len < 8 →
    step s = .next { s with
      schedule := rest
      agents := s.agents.set n { ag with todo := ops, received := ag.received ++ [.returned .ok] } }

/-- R152: when a block command answers other than OK, the driver stops, writes nothing and returns the status; the only such
answer to a driver's request is ERR_NOT_KEYED, which comes when the core is not keyed. That the agent then still has its later
operations to do, and goes on with them, is not R152: it is the model's choice (log entry 16), and so is the form of the
host's side (log entries 4 and 5). -/
def Obligations.StreamStopsOnError : Prop :=
  ∀ (s : State) (f : InFlight) (rest : List Event) (ag : Agent) (c : StreamCall) (ops : List HostOp) (din : DWord),
    s.schedule = .complete :: rest → s.inProgress = some f → s.agents[f.agent]? = some ag →
    ag.todo = .stream c :: ops → f.req = ⟨c.cmd, 0#128, din⟩ →
    (s.KEYED = false → step s = .next { s with
      schedule := rest
      inProgress := none
      response := some ⟨.errNotKeyed, 0#64⟩
      agents := s.agents.set f.agent { ag with todo := ops, received := ag.received ++ [.returned .errNotKeyed] } }) ∧
    (s.KEYED = true → ∀ u, runRequest f.req s = .next u → ∃ dout, u.response = some ⟨.ok, dout⟩)

/-- A stream call whose buffers are not host memory is refused, not given a result (R153, U11). That the check is made when
the call is presented is the model's choice (log entry 8). -/
def Obligations.BadBuffersAreRefused : Prop :=
  ∀ (s : State) (n : Nat) (rest : List Event) (ag : Agent) (c : StreamCall) (ops : List HostOp),
    s.schedule = .present n :: rest → s.agents[n]? = some ag → ag.waiting = none → ag.todo = .stream c :: ops →
    (∀ f, s.inProgress = some f → f.agent ≠ n) →
    (∃ k, k < c.len ∧ (readByte s.mem (c.inp + k) = none ∨ readByte s.mem (c.out + k) = none)) →
    step s = .refused (.bufferNotHostMemory c)

/-- R151: two calls one after the other, the first over whole blocks, leave the memory and the core as one call over both. The form of
the host's side is the model's choice (log entries 5, 7, 8, 15 and 16). -/
def Obligations.StreamsChainAcrossCalls : Prop :=
  ∀ (s : State) (dir : Direction) (out inp m n : Nat), s.KEYED = true → buffersOk s.mem ⟨dir, out, inp, 8 * m + n⟩ = true →
    ∃ t u : State,
      Host.Core.run core (2 * m + 1 + 2 * (n / 8) + 1)
        (solo [.stream ⟨dir, out, inp, 8 * m⟩, .stream ⟨dir, out + 8 * m, inp + 8 * m, n⟩]
          (soloEvents m ++ .present 0 :: soloEvents (n / 8) ++ [.present 0]) s) = .next t ∧
      Host.Core.run core (2 * ((8 * m + n) / 8) + 1)
        (solo [.stream ⟨dir, out, inp, 8 * m + n⟩] (soloEvents ((8 * m + n) / 8) ++ [.present 0]) s) = .next u ∧
      t.mem = u.mem ∧ t.life = u.life

/-! ## The assembler -/

/-- R70: the rule's own lines, and that each is encoded with its word and operand fields and zero in the fields omitted.
The layout of a text line is the model's choice (log entry 14). -/
def Obligations.AssemblerLines : Prop :=
  parseLine "KEYINIT 000102030405060708090A0B0C0D0E0F".toList =
    some (.command (.keyinit 0x0F0E0D0C0B0A09080706050403020100#128)) ∧
  parseLine "ENCBLK  0x03020100, 0x07060504".toList = some (.command (.encblk ⟨0x03020100#32, 0x07060504#32⟩)) ∧
  parseLine "decblk 0x1970D3D9, 0x1B16C1AE".toList = some (.command (.decblk ⟨0x1970D3D9#32, 0x1B16C1AE#32⟩)) ∧
  parseLine "RDSK 25".toList = some (.command (.rdsk 25)) ∧
  parseLine "RDCK".toList = some (.command .rdck) ∧
  parseLine ".word 0x80000001".toList = some (.word 0x80000001#32) ∧
  (∀ key, (AsmLine.command (.keyinit key)).ops = [.command ⟨0x00000001#32, key, 0#64⟩]) ∧
  (∀ p : Block, (AsmLine.command (.encblk p)).ops = [.command ⟨0x00000002#32, 0#128, p.b ++ p.a⟩]) ∧
  (∀ c : Block, (AsmLine.command (.decblk c)).ops = [.command ⟨0x00000003#32, 0#128, c.b ++ c.a⟩]) ∧
  (∀ k, k < 32 → (AsmLine.command (.rdsk k)).ops =
    [.command ⟨0x00000004#32 ||| (BitVec.ofNat 32 k <<< 8), 0#128, 0#64⟩]) ∧
  (AsmLine.command .rdck).ops = [.command ⟨0x00000005#32, 0#128, 0#64⟩] ∧
  (∀ w, (AsmLine.word w).ops = [.command ⟨w, 0#128, 0#64⟩])

/-- R71: the pseudo-instructions' expansions. -/
def Obligations.PseudoInstructions : Prop :=
  (∀ key, (AsmLine.init key).ops = (AsmLine.command (.keyinit key)).ops) ∧
  (∀ out inp len, (AsmLine.encstream out inp len).ops = [.stream ⟨.enc, out, inp, len⟩]) ∧
  (∀ out inp len, (AsmLine.decstream out inp len).ops = [.stream ⟨.dec, out, inp, len⟩]) ∧
  AsmLine.rdskall.ops.length = 26 ∧
  (∀ k : Nat, k < 26 → AsmLine.rdskall.ops[k]? = some (.command (encode (.rdsk k))))
end

