-- ==== Sys2Proof/Laws/Decode.lean ====
section
/-! SUPPORT. The fields of a command word made from its fields, and the operand packings undone. -/

namespace Sys2Proof

@[simp] theorem opField_cmdWord (op : BitVec 4) (idx : BitVec 5) : opField (cmdWord op idx) = op := by
  revert op idx
  decide +kernel

@[simp] theorem rsv0Field_cmdWord (op : BitVec 4) (idx : BitVec 5) : rsv0Field (cmdWord op idx) = 0#4 := by
  revert op idx
  decide +kernel

@[simp] theorem idxField_cmdWord (op : BitVec 4) (idx : BitVec 5) : idxField (cmdWord op idx) = idx := by
  revert op idx
  decide +kernel

@[simp] theorem rsv1Field_cmdWord (op : BitVec 4) (idx : BitVec 5) : rsv1Field (cmdWord op idx) = 0#19 := by
  revert op idx
  decide +kernel

/-- A command word is made of its four fields. -/
theorem cmd_eq_fields (w : Word) : w = rsv1Field w ++ idxField w ++ rsv0Field w ++ opField w := by
  apply BitVec.eq_of_getLsbD_eq
  intro n hn
  simp only [rsv1Field, idxField, rsv0Field, opField, BitVec.getLsbD_append, BitVec.getLsbD_extractLsb']
  split
  · simp_all
  · split
    · simp [show n - 4 < 4 by omega, show 4 + (n - 4) = n by omega]
    · split
      · simp [show n - 4 - 4 < 5 by omega, show 8 + (n - 4 - 4) = n by omega]
      · simp [show n - 4 - 4 - 5 < 19 by omega, show 13 + (n - 4 - 4 - 5) = n by omega]

/-- With both reserved fields zero, a command word is made of its code and its index. -/
theorem cmd_eq_cmdWord {w : Word} (h0 : rsv0Field w = 0#4) (h1 : rsv1Field w = 0#19) :
    w = cmdWord (opField w) (idxField w) := by
  conv => lhs; rw [cmd_eq_fields w, h0, h1]
  rfl

/-- Everything the decoder can do when it answers a command: the word is that command's word, and the operands are the
request's fields. -/
theorem decode_command {r : Request} {i : Instr} (h : decode r = .command i) :
    (r.cmd = cmdWord 1#4 0#5 ∧ i = .keyinit r.key) ∨
    (r.cmd = cmdWord 2#4 0#5 ∧ i = .encblk (Machine.unpackBlock r.din)) ∨
    (r.cmd = cmdWord 3#4 0#5 ∧ i = .decblk (Machine.unpackBlock r.din)) ∨
    (r.cmd = cmdWord 4#4 (idxField r.cmd) ∧ i = .rdsk (idxField r.cmd).toNat) ∨
    (r.cmd = cmdWord 5#4 0#5 ∧ i = .rdck) := by
  unfold decode at h
  split at h
  · cases h
  · next hr =>
    simp only [ne_eq, not_or, Decidable.not_not] at hr
    have hw := cmd_eq_cmdWord hr.2 hr.1
    have op : ∀ n, (opField r.cmd).toNat = n → opField r.cmd = BitVec.ofNat 4 n := by
      intro n hn
      simp [← hn]
    have zero : ∀ {j : Instr}, needZeroIndex r.cmd j = .command i → idxField r.cmd = 0#5 ∧ i = j := by
      intro j hj
      unfold needZeroIndex at hj
      split at hj
      · next hz => exact ⟨hz, by cases hj; rfl⟩
      · cases hj
    split at h
    · next ho => obtain ⟨hz, rfl⟩ := zero h; rw [op _ ho, hz] at hw; exact .inl ⟨hw, rfl⟩
    · next ho => obtain ⟨hz, rfl⟩ := zero h; rw [op _ ho, hz] at hw; exact .inr (.inl ⟨hw, rfl⟩)
    · next ho => obtain ⟨hz, rfl⟩ := zero h; rw [op _ ho, hz] at hw; exact .inr (.inr (.inl ⟨hw, rfl⟩))
    · next ho => cases h; rw [op _ ho] at hw; exact .inr (.inr (.inr (.inl ⟨hw, rfl⟩)))
    · next ho => obtain ⟨hz, rfl⟩ := zero h; rw [op _ ho, hz] at hw; exact .inr (.inr (.inr (.inr ⟨hw, rfl⟩)))
    · cases h

theorem decode_keyinit (key : Key) (din : DWord) : decode ⟨cmdWord 1#4 0#5, key, din⟩ = .command (.keyinit key) := by
  simp [decode, needZeroIndex]

theorem decode_encblk (key : Key) (din : DWord) :
    decode ⟨cmdWord 2#4 0#5, key, din⟩ = .command (.encblk (Machine.unpackBlock din)) := by
  simp [decode, needZeroIndex]

theorem decode_decblk (key : Key) (din : DWord) :
    decode ⟨cmdWord 3#4 0#5, key, din⟩ = .command (.decblk (Machine.unpackBlock din)) := by
  simp [decode, needZeroIndex]

theorem decode_rdsk (idx : BitVec 5) (key : Key) (din : DWord) :
    decode ⟨cmdWord 4#4 idx, key, din⟩ = .command (.rdsk idx.toNat) := by
  simp [decode]

theorem decode_rdck (key : Key) (din : DWord) : decode ⟨cmdWord 5#4 0#5, key, din⟩ = .command .rdck := by
  simp [decode, needZeroIndex]

end Sys2Proof

namespace Sys2Proof.Machine

@[simp] theorem unpackBlock_packBlock (x : Block) : unpackBlock (packBlock x) = x := by
  have lo : (x.b ++ x.a).extractLsb' 0 32 = x.a := by
    apply BitVec.eq_of_getLsbD_eq
    intro n hn
    simp only [BitVec.getLsbD_extractLsb', BitVec.getLsbD_append]
    simp [hn]
  have hi : (x.b ++ x.a).extractLsb' 32 32 = x.b := by
    apply BitVec.eq_of_getLsbD_eq
    intro n hn
    simp only [BitVec.getLsbD_extractLsb', BitVec.getLsbD_append]
    simp [hn]
  show Block.mk ((x.b ++ x.a).extractLsb' 0 32) ((x.b ++ x.a).extractLsb' 32 32) = x
  rw [lo, hi]

@[simp] theorem packBlock_unpackBlock (v : DWord) : packBlock (unpackBlock v) = v := by
  apply BitVec.eq_of_getLsbD_eq
  intro n hn
  simp only [packBlock, unpackBlock, BitVec.getLsbD_append, BitVec.getLsbD_extractLsb']
  split
  · next h => simp [h]
  · next h => simp [show n - 32 < 32 by omega, show 32 + (n - 32) = n by omega]

end Sys2Proof.Machine
end

