-- ==== Sys2Proof/Laws/Memory.lean ====
section
/-! SUPPORT. Reads and writes of host memory: read after write, the domain, and the canonical form. -/

namespace Sys2Proof.Machine

theorem readByte_writeByte_same {m m' : List Host.Cell} {x : Nat} {v : Byte} (h : writeByte m x v = some m') :
    readByte m' x = some v := by
  induction m generalizing m' with
  | nil => simp [writeByte] at h
  | cons c m ih =>
    by_cases hc : c.1 = x
    · simp [writeByte, hc] at h
      simp [← h, readByte]
    · simp [writeByte, hc] at h
      obtain ⟨m1, h1, rfl⟩ := h
      simp [readByte, hc, ih h1]

theorem readByte_writeByte_other {m m' : List Host.Cell} {x y : Nat} {v : Byte} (h : writeByte m x v = some m')
    (hxy : y ≠ x) : readByte m' y = readByte m y := by
  induction m generalizing m' with
  | nil => simp [writeByte] at h
  | cons c m ih =>
    by_cases hc : c.1 = x
    · simp [writeByte, hc] at h
      simp [← h, readByte, hc, Ne.symm hxy]
    · simp [writeByte, hc] at h
      obtain ⟨m1, h1, rfl⟩ := h
      simp [readByte, ih h1]

/-- A byte can be written exactly where one can be read. -/
theorem writeByte_isSome (m : List Host.Cell) (x : Nat) (v : Byte) :
    (writeByte m x v).isSome = (readByte m x).isSome := by
  induction m with
  | nil => rfl
  | cons c m ih => by_cases hc : c.1 = x <;> simp [writeByte, readByte, hc, ih]

/-- A write changes no address and adds none. -/
theorem writeByte_addresses {m m' : List Host.Cell} {x : Nat} {v : Byte} (h : writeByte m x v = some m') :
    m'.map Prod.fst = m.map Prod.fst := by
  induction m generalizing m' with
  | nil => simp [writeByte] at h
  | cons c m ih =>
    by_cases hc : c.1 = x
    · simp [writeByte, hc] at h
      simp [← h, hc]
    · simp [writeByte, hc] at h
      obtain ⟨m1, h1, rfl⟩ := h
      simp [ih h1]

theorem memWrite_addresses {n : Nat} {m m' : List Host.Cell} {x : Nat} {v : BitVec (8 * n)}
    (h : memWrite m x n v = some m') : m'.map Prod.fst = m.map Prod.fst := by
  induction n generalizing m x with
  | zero => simp [memWrite] at h; simp [h]
  | succ n ih =>
    simp only [memWrite] at h
    split at h
    · next m1 h1 => rw [ih h, writeByte_addresses h1]
    · simp at h

theorem Memory.wf_iff_addresses (m : List Host.Cell) : Memory.wf m ↔ (m.map Prod.fst).Pairwise (· < ·) := by
  simp [Memory.wf, List.pairwise_map]

/-- Every write keeps the canonical form. -/
theorem writeByte_wf {m m' : List Host.Cell} {x : Nat} {v : Byte} (h : writeByte m x v = some m')
    (hm : Memory.wf m) : Memory.wf m' := by
  rw [Memory.wf_iff_addresses] at *
  rwa [writeByte_addresses h]

theorem memWrite_wf {n : Nat} {m m' : List Host.Cell} {x : Nat} {v : BitVec (8 * n)}
    (h : memWrite m x n v = some m') (hm : Memory.wf m) : Memory.wf m' := by
  rw [Memory.wf_iff_addresses] at *
  rwa [memWrite_addresses h]

/-- Which addresses can be read depends on the listed addresses only. -/
theorem readByte_isSome (m : List Host.Cell) (x : Nat) : (readByte m x).isSome = (m.map Prod.fst).contains x := by
  induction m with
  | nil => rfl
  | cons c m ih => by_cases hc : c.1 = x <;> simp_all [readByte, eq_comm]

/-- A write leaves every buffer that is host memory so, and makes no other one so. -/
theorem isHostMemory_memWrite {n : Nat} {m m' : List Host.Cell} {x : Nat} {v : BitVec (8 * n)}
    (h : memWrite m x n v = some m') (addr len : Nat) : isHostMemory m' addr len = isHostMemory m addr len := by
  simp [isHostMemory, readByte_isSome, memWrite_addresses h]

/-- A read of `n` bytes succeeds exactly on host memory. -/
theorem memRead_isSome (m : List Host.Cell) (addr n : Nat) :
    (memRead m addr n).isSome = isHostMemory m addr n := by
  induction n generalizing addr with
  | zero => rfl
  | succ n ih =>
    have hs : isHostMemory m addr (n + 1) = ((readByte m addr).isSome && isHostMemory m (addr + 1) n) := by
      simp only [isHostMemory, List.range_succ_eq_map, List.all_cons, List.all_map, Nat.add_zero]
      congr 2
      funext k
      simp only [Function.comp, Nat.succ_eq_add_one, Nat.add_assoc, Nat.add_comm 1 k]
    rw [hs, ← ih]
    simp only [memRead]
    cases readByte m addr <;> cases memRead m (addr + 1) n <;> rfl

/-- A write of `n` bytes succeeds exactly on host memory. -/
theorem memWrite_isSome (m : List Host.Cell) (addr n : Nat) (v : BitVec (8 * n)) :
    (memWrite m addr n v).isSome = isHostMemory m addr n := by
  rw [← memRead_isSome]
  induction n generalizing m addr with
  | zero => rfl
  | succ n ih =>
    simp only [memWrite, memRead]
    have hw := writeByte_isSome m addr (v.extractLsb' 0 8)
    cases h1 : writeByte m addr (v.extractLsb' 0 8) with
    | none =>
      rw [h1] at hw
      cases h2 : readByte m addr with
      | none => rfl
      | some b => rw [h2] at hw; simp at hw
    | some m1 =>
      rw [h1] at hw
      cases h2 : readByte m addr with
      | none => rw [h2] at hw; simp at hw
      | some b =>
        have hd : (memRead m1 (addr + 1) n).isSome = (memRead m (addr + 1) n).isSome := by
          rw [memRead_isSome, memRead_isSome]
          simp [isHostMemory, readByte_isSome, writeByte_addresses h1]
        rw [ih, hd]
        cases memRead m (addr + 1) n <;> rfl

/-- A write leaves every byte outside its `n` bytes alone. -/
theorem readByte_memWrite_other {n : Nat} {m m' : List Host.Cell} {x y : Nat} {v : BitVec (8 * n)}
    (h : memWrite m x n v = some m') (hy : y < x ∨ x + n ≤ y) : readByte m' y = readByte m y := by
  induction n generalizing m x with
  | zero => simp [memWrite] at h; simp [h]
  | succ n ih =>
    simp only [memWrite] at h
    split at h
    · next m1 h1 => rw [ih h (by omega), readByte_writeByte_other h1 (by omega)]
    · simp at h

/-- Each byte of a value that was read. -/
theorem readByte_of_memRead {n : Nat} {m : List Host.Cell} {addr : Nat} {v : BitVec (8 * n)}
    (h : memRead m addr n = some v) (k : Nat) (hk : k < n) :
    readByte m (addr + k) = some (v.extractLsb' (8 * k) 8) := by
  induction n generalizing addr k with
  | zero => omega
  | succ n ih =>
    simp only [memRead] at h
    split at h
    · next b hi' hb hh =>
      cases h
      cases k with
      | zero =>
        rw [Nat.add_zero, hb]
        congr 1
        apply BitVec.eq_of_getLsbD_eq
        intro i hi
        rw [BitVec.getLsbD_extractLsb']
        have := BitVec.getLsbD_append (x := hi') (y := b) (i := 8 * 0 + i)
        simp only [Nat.mul_zero, Nat.zero_add, hi, decide_true, Bool.true_and, if_true] at this ⊢
        exact this.symm
      | succ k =>
        have := ih hh k (by omega)
        rw [show addr + (k + 1) = addr + 1 + k by omega, this]
        congr 1
        apply BitVec.eq_of_getLsbD_eq
        intro i hi2
        rw [BitVec.getLsbD_extractLsb', BitVec.getLsbD_extractLsb']
        have := BitVec.getLsbD_append (x := hi') (y := b) (i := 8 * (k + 1) + i)
        simp only [hi2]
        refine Eq.trans ?_ (congrArg (decide True && ·) this.symm)
        simp [show ¬ 8 * (k + 1) + i < 8 by omega, show 8 * (k + 1) + i - 8 = 8 * k + i by omega]
    · simp at h

/-- Each byte that was written. -/
theorem readByte_memWrite_stored {n : Nat} {m m' : List Host.Cell} {addr : Nat} {v : BitVec (8 * n)}
    (h : memWrite m addr n v = some m') (k : Nat) (hk : k < n) :
    readByte m' (addr + k) = some (v.extractLsb' (8 * k) 8) := by
  induction n generalizing addr k m with
  | zero => omega
  | succ n ih =>
    simp only [memWrite] at h
    split at h
    · next m1 h1 =>
      cases k with
      | zero => rw [Nat.add_zero, readByte_memWrite_other h (by omega), readByte_writeByte_same h1]
      | succ k =>
        rw [show addr + (k + 1) = addr + 1 + k by omega, ih h k (by omega)]
        congr 1
        apply BitVec.eq_of_getLsbD_eq
        intro i hi2
        simp only [BitVec.getLsbD_extractLsb', hi2]
        simp [show 8 + (8 * k + i) = 8 * (k + 1) + i by omega, show 8 * k + i < 8 * n by omega]
    · simp at h

end Sys2Proof.Machine
end

