-- ==== Sys2Proof/Laws/State.lean ====
section
/-! SUPPORT. One lemma per field per update of the state, and the views of KEYED, S and CK after each. -/

namespace Sys2Proof.Machine

@[simp] theorem respond_life (st : Status) (d : DWord) (s : State) :
    (respond st d s).life = s.life := rfl

@[simp] theorem respond_params (st : Status) (d : DWord) (s : State) :
    (respond st d s).params = s.params := rfl

@[simp] theorem respond_inProgress (st : Status) (d : DWord) (s : State) :
    (respond st d s).inProgress = none := rfl

@[simp] theorem respond_response (st : Status) (d : DWord) (s : State) :
    (respond st d s).response = some ⟨st, d⟩ := rfl

@[simp] theorem respond_agents (st : Status) (d : DWord) (s : State) :
    (respond st d s).agents = s.agents := rfl

@[simp] theorem respond_schedule (st : Status) (d : DWord) (s : State) :
    (respond st d s).schedule = s.schedule := rfl

@[simp] theorem respond_mem (st : Status) (d : DWord) (s : State) :
    (respond st d s).mem = s.mem := rfl

@[simp] theorem raiseError_life (st : Status) (s : State) :
    (raiseError st s).life = s.life := rfl

@[simp] theorem raiseError_params (st : Status) (s : State) :
    (raiseError st s).params = s.params := rfl

@[simp] theorem raiseError_inProgress (st : Status) (s : State) :
    (raiseError st s).inProgress = none := rfl

@[simp] theorem raiseError_response (st : Status) (s : State) :
    (raiseError st s).response = some ⟨st, 0#64⟩ := rfl

@[simp] theorem raiseError_agents (st : Status) (s : State) :
    (raiseError st s).agents = s.agents := rfl

@[simp] theorem raiseError_schedule (st : Status) (s : State) :
    (raiseError st s).schedule = s.schedule := rfl

@[simp] theorem raiseError_mem (st : Status) (s : State) :
    (raiseError st s).mem = s.mem := rfl

@[simp] theorem installKey_life (S : SubkeyTable) (s : State) :
    (installKey S s).life = .keyed S ⟨s.params.iv0, s.params.iv1⟩ := rfl

@[simp] theorem installKey_params (S : SubkeyTable) (s : State) :
    (installKey S s).params = s.params := rfl

@[simp] theorem installKey_inProgress (S : SubkeyTable) (s : State) :
    (installKey S s).inProgress = s.inProgress := rfl

@[simp] theorem installKey_response (S : SubkeyTable) (s : State) :
    (installKey S s).response = s.response := rfl

@[simp] theorem installKey_agents (S : SubkeyTable) (s : State) :
    (installKey S s).agents = s.agents := rfl

@[simp] theorem installKey_schedule (S : SubkeyTable) (s : State) :
    (installKey S s).schedule = s.schedule := rfl

@[simp] theorem installKey_mem (S : SubkeyTable) (s : State) :
    (installKey S s).mem = s.mem := rfl

@[simp] theorem writeChain_life (S : SubkeyTable) (c : Block) (s : State) :
    (writeChain S c s).life = .keyed S c := rfl

@[simp] theorem writeChain_params (S : SubkeyTable) (c : Block) (s : State) :
    (writeChain S c s).params = s.params := rfl

@[simp] theorem writeChain_inProgress (S : SubkeyTable) (c : Block) (s : State) :
    (writeChain S c s).inProgress = s.inProgress := rfl

@[simp] theorem writeChain_response (S : SubkeyTable) (c : Block) (s : State) :
    (writeChain S c s).response = s.response := rfl

@[simp] theorem writeChain_agents (S : SubkeyTable) (c : Block) (s : State) :
    (writeChain S c s).agents = s.agents := rfl

@[simp] theorem writeChain_schedule (S : SubkeyTable) (c : Block) (s : State) :
    (writeChain S c s).schedule = s.schedule := rfl

@[simp] theorem writeChain_mem (S : SubkeyTable) (c : Block) (s : State) :
    (writeChain S c s).mem = s.mem := rfl

@[simp] theorem resetCore_life (s : State) :
    (resetCore s).life = .uninitialized := rfl

@[simp] theorem resetCore_params (s : State) :
    (resetCore s).params = s.params := rfl

@[simp] theorem resetCore_inProgress (s : State) :
    (resetCore s).inProgress = none := rfl

@[simp] theorem resetCore_response (s : State) :
    (resetCore s).response = none := rfl

@[simp] theorem resetCore_agents (s : State) :
    (resetCore s).agents = s.agents := rfl

@[simp] theorem resetCore_schedule (s : State) :
    (resetCore s).schedule = s.schedule := rfl

@[simp] theorem resetCore_mem (s : State) :
    (resetCore s).mem = s.mem := rfl

@[simp] theorem setAgent_life (n : Nat) (ag : Agent) (s : State) :
    (setAgent n ag s).life = s.life := rfl

@[simp] theorem setAgent_params (n : Nat) (ag : Agent) (s : State) :
    (setAgent n ag s).params = s.params := rfl

@[simp] theorem setAgent_inProgress (n : Nat) (ag : Agent) (s : State) :
    (setAgent n ag s).inProgress = s.inProgress := rfl

@[simp] theorem setAgent_response (n : Nat) (ag : Agent) (s : State) :
    (setAgent n ag s).response = s.response := rfl

@[simp] theorem setAgent_agents (n : Nat) (ag : Agent) (s : State) :
    (setAgent n ag s).agents = s.agents.set n ag := rfl

@[simp] theorem setAgent_schedule (n : Nat) (ag : Agent) (s : State) :
    (setAgent n ag s).schedule = s.schedule := rfl

@[simp] theorem setAgent_mem (n : Nat) (ag : Agent) (s : State) :
    (setAgent n ag s).mem = s.mem := rfl

@[simp] theorem placeRequest_life (r : Request) (s : State) :
    (placeRequest r s).life = s.life := rfl

@[simp] theorem placeRequest_params (r : Request) (s : State) :
    (placeRequest r s).params = s.params := rfl

@[simp] theorem placeRequest_inProgress (r : Request) (s : State) :
    (placeRequest r s).inProgress = some ⟨s.agents.length, r⟩ := rfl

@[simp] theorem placeRequest_response (r : Request) (s : State) :
    (placeRequest r s).response = s.response := rfl

@[simp] theorem placeRequest_agents (r : Request) (s : State) :
    (placeRequest r s).agents = s.agents := rfl

@[simp] theorem placeRequest_schedule (r : Request) (s : State) :
    (placeRequest r s).schedule = .complete :: s.schedule := rfl

@[simp] theorem placeRequest_mem (r : Request) (s : State) :
    (placeRequest r s).mem = s.mem := rfl

@[simp] theorem respond_KEYED (st : Status) (d : DWord) (s : State) :
    (respond st d s).KEYED = s.KEYED := rfl

@[simp] theorem raiseError_KEYED (st : Status) (s : State) :
    (raiseError st s).KEYED = s.KEYED := rfl

@[simp] theorem installKey_KEYED (S : SubkeyTable) (s : State) :
    (installKey S s).KEYED = true := rfl

@[simp] theorem writeChain_KEYED (S : SubkeyTable) (c : Block) (s : State) :
    (writeChain S c s).KEYED = true := rfl

@[simp] theorem resetCore_KEYED (s : State) :
    (resetCore s).KEYED = false := rfl

@[simp] theorem setAgent_KEYED (n : Nat) (ag : Agent) (s : State) :
    (setAgent n ag s).KEYED = s.KEYED := rfl

@[simp] theorem placeRequest_KEYED (r : Request) (s : State) :
    (placeRequest r s).KEYED = s.KEYED := rfl

@[simp] theorem respond_S (st : Status) (d : DWord) (s : State) :
    (respond st d s).S = s.S := rfl

@[simp] theorem raiseError_S (st : Status) (s : State) :
    (raiseError st s).S = s.S := rfl

@[simp] theorem installKey_S (S : SubkeyTable) (s : State) :
    (installKey S s).S = some S := rfl

@[simp] theorem writeChain_S (S : SubkeyTable) (c : Block) (s : State) :
    (writeChain S c s).S = some S := rfl

@[simp] theorem resetCore_S (s : State) :
    (resetCore s).S = none := rfl

@[simp] theorem setAgent_S (n : Nat) (ag : Agent) (s : State) :
    (setAgent n ag s).S = s.S := rfl

@[simp] theorem placeRequest_S (r : Request) (s : State) :
    (placeRequest r s).S = s.S := rfl

@[simp] theorem respond_CK (st : Status) (d : DWord) (s : State) :
    (respond st d s).CK = s.CK := rfl

@[simp] theorem raiseError_CK (st : Status) (s : State) :
    (raiseError st s).CK = s.CK := rfl

@[simp] theorem installKey_CK (S : SubkeyTable) (s : State) :
    (installKey S s).CK = some ⟨s.params.iv0, s.params.iv1⟩ := rfl

@[simp] theorem writeChain_CK (S : SubkeyTable) (c : Block) (s : State) :
    (writeChain S c s).CK = some c := rfl

@[simp] theorem resetCore_CK (s : State) :
    (resetCore s).CK = none := rfl

@[simp] theorem setAgent_CK (n : Nat) (ag : Agent) (s : State) :
    (setAgent n ag s).CK = s.CK := rfl

@[simp] theorem placeRequest_CK (r : Request) (s : State) :
    (placeRequest r s).CK = s.CK := rfl

/-- R21 for the form this model gives the state: KEYED is 1 exactly when the table and the chain vector hold values. -/
theorem keyed_iff_values (s : State) : s.KEYED = true ↔ ∃ S CK, s.life = .keyed S CK := by
  cases h : s.life <;> simp [State.KEYED, h]

theorem keyed_of_life {s : State} {S : SubkeyTable} {CK : Block} (h : s.life = .keyed S CK) :
    s.KEYED = true ∧ s.S = some S ∧ s.CK = some CK := by
  simp [State.KEYED, State.S, State.CK, h]

theorem uninitialized_of_life {s : State} (h : s.life = .uninitialized) :
    s.KEYED = false ∧ s.S = none ∧ s.CK = none := by
  simp [State.KEYED, State.S, State.CK, h]

end Sys2Proof.Machine
end

