-- ==== Sys2Proof/Laws/Ops.lean ====
section
/-! SUPPORT. What the shared operations and the commands can do, said once. -/

namespace Sys2Proof.Machine

theorem requireKeyed_keyed {s : State} {S : SubkeyTable} {CK : Block} (h : s.life = .keyed S CK)
    (body : SubkeyTable → Block → Host.Outcome State Fault Refusal) : requireKeyed s body = body S CK := by
  simp [requireKeyed, h]

theorem requireKeyed_uninitialized {s : State} (h : s.life = .uninitialized)
    (body : SubkeyTable → Block → Host.Outcome State Fault Refusal) :
    requireKeyed s body = .next (raiseError .errNotKeyed s) := by
  simp [requireKeyed, h]

/-- Everything the KEYED guard can do when the guarded command answers a next state. -/
theorem requireKeyed_cases {s t : State} {body : SubkeyTable → Block → Host.Outcome State Fault Refusal}
    (h : requireKeyed s body = .next t) :
    (s.life = .uninitialized ∧ t = raiseError .errNotKeyed s) ∨
      ∃ S CK, s.life = .keyed S CK ∧ body S CK = .next t := by
  cases hl : s.life with
  | uninitialized =>
    rw [requireKeyed_uninitialized hl] at h
    exact .inl ⟨rfl, (Host.Outcome.next.inj h).symm⟩
  | keyed S CK =>
    rw [requireKeyed_keyed hl] at h
    exact .inr ⟨S, CK, rfl, h⟩

/-- The index check of RDSK, for an index in range. -/
theorem execRdsk_inRange {s : State} {S : SubkeyTable} {CK : Block} (h : s.life = .keyed S CK) {k : Nat} (hk : k < 26) :
    execRdsk k s = .next (respond .ok (zext64 S[k]) s) := by
  simp [execRdsk, requireKeyed_keyed h, hk]

/-- The index check of RDSK, for an index out of range. -/
theorem execRdsk_outOfRange {s : State} {S : SubkeyTable} {CK : Block} (h : s.life = .keyed S CK) {k : Nat}
    (hk : 26 ≤ k) : execRdsk k s = .next (raiseError .errBadIndex s) := by
  simp [execRdsk, requireKeyed_keyed h, show ¬ k < 26 by omega]

/-- Everything a command can do: it answers `respond st d` of the state, of the state with a key installed, or of the state
with a new chain vector beside the same table. -/
theorem exec_cases (i : Instr) (s : State) :
    (∃ st, st ≠ .ok ∧ exec i s = .next (raiseError st s)) ∨
    (∃ key, i = .keyinit key ∧ exec i s = .next (respond .ok 0#64 (installKey (expand key) s))) ∨
    (∃ S CK p, i = .encblk p ∧ s.life = .keyed S CK ∧
      exec i s = .next (respond .ok (packBlock (encodeBlock S (xorBlock p CK)))
        (writeChain S (encodeBlock S (xorBlock p CK)) s))) ∨
    (∃ S CK c, i = .decblk c ∧ s.life = .keyed S CK ∧
      exec i s = .next (respond .ok (packBlock (xorBlock (decodeBlock S c) CK)) (writeChain S c s))) ∨
    (∃ S CK d, s.life = .keyed S CK ∧ (i = .rdck ∨ ∃ k, i = .rdsk k) ∧ exec i s = .next (respond .ok d s)) := by
  cases hl : s.life with
  | uninitialized =>
    cases i with
    | keyinit key => exact .inr (.inl ⟨key, rfl, rfl⟩)
    | encblk p => exact .inl ⟨_, by decide, requireKeyed_uninitialized hl _⟩
    | decblk c => exact .inl ⟨_, by decide, requireKeyed_uninitialized hl _⟩
    | rdsk k => exact .inl ⟨_, by decide, requireKeyed_uninitialized hl _⟩
    | rdck => exact .inl ⟨_, by decide, requireKeyed_uninitialized hl _⟩
  | keyed S CK =>
    cases i with
    | keyinit key => exact .inr (.inl ⟨key, rfl, rfl⟩)
    | encblk p => exact .inr (.inr (.inl ⟨S, CK, p, rfl, rfl, requireKeyed_keyed hl _⟩))
    | decblk c => exact .inr (.inr (.inr (.inl ⟨S, CK, c, rfl, rfl, requireKeyed_keyed hl _⟩)))
    | rdsk k =>
      rcases Nat.lt_or_ge k 26 with hk | hk
      · exact .inr (.inr (.inr (.inr ⟨S, CK, _, rfl, .inr ⟨k, rfl⟩, execRdsk_inRange hl hk⟩)))
      · exact .inl ⟨_, by decide, execRdsk_outOfRange hl hk⟩
    | rdck => exact .inr (.inr (.inr (.inr ⟨S, CK, _, rfl, .inl rfl, requireKeyed_keyed hl _⟩)))

/-- What no command touches: the parameters and the host's side (spec/20_memory.md R40, spec/10_state.md R34). -/
theorem exec_frame {i : Instr} {s t : State} (h : exec i s = .next t) :
    t.params = s.params ∧ t.agents = s.agents ∧ t.schedule = s.schedule ∧ t.mem = s.mem ∧ t.inProgress = none := by
  rcases exec_cases i s with ⟨_, _, e⟩ | ⟨_, _, e⟩ | ⟨_, _, _, _, _, e⟩ | ⟨_, _, _, _, _, e⟩ | ⟨_, _, _, _, _, e⟩ <;>
    · rw [e] at h
      cases h
      simp

end Sys2Proof.Machine
end

