-- ==== Sys2Proof/Laws/HostDriver.lean ====
section
/-! SUPPORT. What the port and the host driver can do, said once: running a request, presenting, delivering, completing, and
one step. -/

namespace Sys2Proof.Machine

@[simp] theorem awaitsResponse_none {n : Nat} {s : State} (h : s.inProgress = none) : awaitsResponse n s = false := by
  simp [awaitsResponse, h]

@[simp] theorem awaitsResponse_some {n : Nat} {s : State} {f : InFlight} (h : s.inProgress = some f) :
    awaitsResponse n s = (f.agent == n) := by
  simp [awaitsResponse, h]

/-- An idle core accepts what it is offered. -/
theorem offer_idle {n : Nat} {ag : Agent} {r : Request} {s : State} (h : s.inProgress = none) :
    offer n ag r s = { s with inProgress := some ⟨n, r⟩, agents := s.agents.set n { ag with waiting := none } } := by
  simp [offer, h, setAgent]

/-- A busy core holds the requester. -/
theorem offer_busy {n : Nat} {ag : Agent} {r : Request} {s : State} {f : InFlight} (h : s.inProgress = some f) :
    offer n ag r s = { s with agents := s.agents.set n { ag with waiting := some r } } := by
  simp [offer, h, setAgent]

/-- A request that decodes runs its command. -/
theorem runRequest_command {r : Request} {i : Instr} (h : decode r = .command i) (s : State) :
    runRequest r s = exec i s := by
  simp [runRequest, h]

/-- A request that does not decode answers ERR_ILLEGAL_CMD. -/
theorem runRequest_illegal {r : Request} {why : Illegal} (h : decode r = .illegal why) (s : State) :
    runRequest r s = .next (raiseError .errIllegalCmd s) := by
  simp [runRequest, h]

/-- Everything running a request can do: an error that changes nothing, or a command that completes. -/
theorem runRequest_cases (r : Request) (s : State) :
    (∃ st, st ≠ .ok ∧ runRequest r s = .next (raiseError st s)) ∨
    (∃ key, decode r = .command (.keyinit key) ∧
      runRequest r s = .next (respond .ok 0#64 (installKey (expand key) s))) ∨
    (∃ S CK p, decode r = .command (.encblk p) ∧ s.life = .keyed S CK ∧
      runRequest r s = .next (respond .ok (packBlock (encodeBlock S (xorBlock p CK)))
        (writeChain S (encodeBlock S (xorBlock p CK)) s))) ∨
    (∃ S CK c, decode r = .command (.decblk c) ∧ s.life = .keyed S CK ∧
      runRequest r s = .next (respond .ok (packBlock (xorBlock (decodeBlock S c) CK)) (writeChain S c s))) ∨
    (∃ S CK d, s.life = .keyed S CK ∧ (decode r = .command .rdck ∨ ∃ k, decode r = .command (.rdsk k)) ∧
      runRequest r s = .next (respond .ok d s)) := by
  cases hd : decode r with
  | illegal why => exact .inl ⟨_, by decide, runRequest_illegal hd s⟩
  | command i =>
    rw [runRequest_command hd]
    simpa using exec_cases i s

/-- What running a request leaves alone. -/
theorem runRequest_frame {r : Request} {s t : State} (h : runRequest r s = .next t) :
    t.params = s.params ∧ t.agents = s.agents ∧ t.schedule = s.schedule ∧ t.mem = s.mem ∧ t.inProgress = none := by
  cases hd : decode r with
  | illegal why =>
    rw [runRequest_illegal hd] at h
    cases h
    simp
  | command i =>
    rw [runRequest_command hd] at h
    exact exec_frame h

/-- Everything delivering a response can do. -/
theorem deliver_cases {n : Nat} {resp : Response} {s t : State} (h : deliver n resp s = .next t) :
    t = s ∨
    (∃ ag q rest, s.agents[n]? = some ag ∧ ag.todo = .command q :: rest ∧
      t = setAgent n { ag with todo := rest, received := ag.received ++ [.response resp] } s) ∨
    (∃ ag c rest m, s.agents[n]? = some ag ∧ ag.todo = .stream c :: rest ∧ resp.status = .ok ∧
      memWrite s.mem c.out 8 resp.dout = some m ∧
      t = setAgent n { ag with todo := .stream c.advance :: rest } { s with mem := m }) ∨
    (∃ ag c rest, s.agents[n]? = some ag ∧ ag.todo = .stream c :: rest ∧ resp.status ≠ .ok ∧
      t = setAgent n { ag with todo := rest, received := ag.received ++ [.returned resp.status] } s) := by
  unfold deliver at h
  split at h
  · cases h; exact .inl rfl
  · next ag hag =>
    split at h
    · cases h; exact .inl rfl
    · next q rest ht => cases h; exact .inr (.inl ⟨ag, q, rest, hag, ht, rfl⟩)
    · next c rest ht =>
      split at h
      · next hok =>
        split at h
        · next m hm => cases h; exact .inr (.inr (.inl ⟨ag, c, rest, m, hag, ht, hok, hm, rfl⟩))
        · cases h
      · next hok => cases h; exact .inr (.inr (.inr ⟨ag, c, rest, hag, ht, hok, rfl⟩))

/-- Everything presenting can do: nothing, offer a request that the agent's first operation makes or that it holds, or end a
stream call that has no whole block left. -/
theorem present_cases {n : Nat} {s t : State} (h : present n s = .next t) :
    t = s ∨
    (∃ ag r, s.agents[n]? = some ag ∧ awaitsResponse n s = false ∧ ag.waiting = some r ∧ t = offer n ag r s) ∨
    (∃ ag r rest, s.agents[n]? = some ag ∧ awaitsResponse n s = false ∧ ag.waiting = none ∧
      ag.todo = .command r :: rest ∧ t = offer n ag r s) ∨
    (∃ ag c rest, s.agents[n]? = some ag ∧ awaitsResponse n s = false ∧ ag.waiting = none ∧
      ag.todo = .stream c :: rest ∧ buffersOk s.mem c = true ∧ c.len < 8 ∧
      t = setAgent n { ag with todo := rest, received := ag.received ++ [.returned .ok] } s) ∨
    (∃ ag c rest din, s.agents[n]? = some ag ∧ awaitsResponse n s = false ∧ ag.waiting = none ∧
      ag.todo = .stream c :: rest ∧ buffersOk s.mem c = true ∧ 8 ≤ c.len ∧ memRead s.mem c.inp 8 = some din ∧
      t = offer n ag ⟨c.cmd, 0#128, din⟩ s) := by
  unfold present at h
  split at h
  · cases h; exact .inl rfl
  · next ag hag =>
    split at h
    · cases h; exact .inl rfl
    · next haw =>
      replace haw : awaitsResponse n s = false := by simpa using haw
      split at h
      · next r hw => cases h; exact .inr (.inl ⟨ag, r, hag, haw, hw, rfl⟩)
      · next hw =>
        unfold beginOp at h
        split at h
        · cases h; exact .inl rfl
        · next r rest ht => cases h; exact .inr (.inr (.inl ⟨ag, r, rest, hag, haw, hw, ht, rfl⟩))
        · next c rest ht =>
          split at h
          · next hb =>
            split at h
            · next hl => cases h; exact .inr (.inr (.inr (.inl ⟨ag, c, rest, hag, haw, hw, ht, hb, hl, rfl⟩)))
            · next hl =>
              split at h
              · next din hr =>
                cases h
                exact .inr (.inr (.inr (.inr ⟨ag, c, rest, din, hag, haw, hw, ht, hb, by omega, hr, rfl⟩)))
              · cases h
          · cases h

/-- Every request that runs is answered. -/
theorem runRequest_answers (r : Request) (s : State) :
    ∃ t resp, runRequest r s = .next t ∧ t.response = some resp ∧ t.inProgress = none := by
  rcases runRequest_cases r s with ⟨_, _, e⟩ | ⟨_, _, e⟩ | ⟨_, _, _, _, _, e⟩ | ⟨_, _, _, _, _, e⟩ | ⟨_, _, _, _, _, e⟩ <;>
    exact ⟨_, _, e, rfl, rfl⟩

/-- Completing is delivering the response of the request in progress. -/
theorem complete_of_run {s u : State} {f : InFlight} {resp : Response} (hf : s.inProgress = some f)
    (hu : runRequest f.req s = .next u) (hr : u.response = some resp) : complete s = deliver f.agent resp u := by
  unfold complete
  rw [hf]
  simp only [hu, deliverResponse, hr]

/-- A request in progress always has a response to deliver. -/
theorem complete_busy {s : State} {f : InFlight} (h : s.inProgress = some f) :
    ∃ u resp, runRequest f.req s = .next u ∧ u.response = some resp ∧ complete s = deliver f.agent resp u := by
  obtain ⟨u, resp, hu, hr, -⟩ := runRequest_answers f.req s
  exact ⟨u, resp, hu, hr, complete_of_run h hu hr⟩

@[simp] theorem complete_idle {s : State} (h : s.inProgress = none) : complete s = .next s := by
  simp [complete, h]

/-- Everything one step can do. -/
theorem step_cases {s t : State} (h : step s = .next t) :
    (s.schedule = [] ∧ complete s = .next t) ∨
    (∃ rest, s.schedule = .complete :: rest ∧ complete { s with schedule := rest } = .next t) ∨
    (∃ n rest, s.schedule = .present n :: rest ∧ present n { s with schedule := rest } = .next t) ∨
    (∃ rest, s.schedule = .reset :: rest ∧ t = resetCore { s with schedule := rest }) := by
  unfold step nextStep at h
  split at h
  · next hs => exact .inl ⟨hs, h⟩
  · next e rest hs =>
    cases e with
    | present n => exact .inr (.inr (.inl ⟨n, rest, hs, h⟩))
    | complete => exact .inr (.inl ⟨rest, hs, h⟩)
    | reset => exact .inr (.inr (.inr ⟨rest, hs, (Host.Outcome.next.inj h).symm⟩))

theorem step_complete {s : State} {rest : List Event} (h : s.schedule = .complete :: rest) :
    step s = complete { s with schedule := rest } := by
  simp [step, nextStep, h, handleEvent]

theorem step_present {s : State} {n : Nat} {rest : List Event} (h : s.schedule = .present n :: rest) :
    step s = present n { s with schedule := rest } := by
  simp [step, nextStep, h, handleEvent]

theorem step_reset {s : State} {rest : List Event} (h : s.schedule = .reset :: rest) :
    step s = .next (resetCore { s with schedule := rest }) := by
  simp [step, nextStep, h, handleEvent]

theorem step_empty {s : State} (h : s.schedule = []) : step s = complete s := by
  simp [step, nextStep, h]

/-- A command's response and its effect on the core depend on the core and the parameters only, and it leaves the host's side
as it is. -/
theorem runRequest_congr {r : Request} {a u : State} (b : State) (hl : a.life = b.life) (hp : a.params = b.params)
    (h : runRequest r a = .next u) :
    runRequest r b = .next { b with life := u.life, response := u.response, inProgress := none } := by
  cases hd : decode r with
  | illegal why =>
    rw [runRequest_illegal hd] at *
    cases h
    simp [raiseError, respond, hl]
  | command i =>
    rw [runRequest_command hd] at *
    obtain ⟨la, pa, _, _, _, _, _⟩ := a
    obtain ⟨lb, pb, _, _, _, _, _⟩ := b
    simp only at hl hp
    subst hl hp
    cases la with
    | uninitialized => cases i <;> cases h <;> rfl
    | keyed S CK =>
      cases i with
      | rdsk k =>
        simp only [exec, execRdsk, requireKeyed] at h ⊢
        by_cases hk : k < 26
        · simp only [dif_pos hk] at h ⊢
          cases h
          rfl
        · simp only [dif_neg hk] at h ⊢
          cases h
          rfl
      | _ =>
        cases h
        rfl

/-- Offering changes neither the core nor what it last answered, nor host memory, nor the schedule. -/
theorem offer_core (n : Nat) (ag : Agent) (r : Request) (s : State) :
    (offer n ag r s).life = s.life ∧ (offer n ag r s).params = s.params ∧ (offer n ag r s).response = s.response ∧
      (offer n ag r s).mem = s.mem ∧ (offer n ag r s).schedule = s.schedule := by
  unfold offer
  split <;> simp

/-- Nor does presenting. -/
theorem present_core {n : Nat} {s t : State} (h : present n s = .next t) :
    t.life = s.life ∧ t.params = s.params ∧ t.response = s.response ∧ t.mem = s.mem := by
  rcases present_cases h with rfl | ⟨_, _, _, _, _, rfl⟩ | ⟨_, _, _, _, _, _, _, rfl⟩ |
    ⟨_, _, _, _, _, _, _, _, _, rfl⟩ | ⟨_, _, _, _, _, _, _, _, _, _, _, rfl⟩ <;> simp [offer_core]

/-- Delivering changes neither the core nor the port. -/
theorem deliver_core {n : Nat} {resp : Response} {s t : State} (h : deliver n resp s = .next t) :
    t.life = s.life ∧ t.params = s.params ∧ t.response = s.response ∧ t.inProgress = s.inProgress := by
  rcases deliver_cases h with rfl | ⟨_, _, _, _, _, rfl⟩ | ⟨_, _, _, _, _, _, _, _, rfl⟩ | ⟨_, _, _, _, _, _, rfl⟩ <;>
    simp

/-- Everything completing can do to the core. -/
theorem complete_core {s t : State} (h : complete s = .next t) :
    t = s ∨ ∃ f u, s.inProgress = some f ∧ runRequest f.req s = .next u ∧ t.life = u.life ∧ t.params = u.params ∧
      t.response = u.response ∧ t.inProgress = none := by
  cases hf : s.inProgress with
  | none =>
    rw [complete_idle hf] at h
    cases h
    exact .inl rfl
  | some f =>
    obtain ⟨u, resp, hu, hr, hc⟩ := complete_busy hf
    rw [hc] at h
    have := deliver_core h
    have hi := (runRequest_frame hu).2.2.2.2
    exact .inr ⟨f, u, rfl, hu, this.1, this.2.1, this.2.2.1, by rw [this.2.2.2, hi]⟩

/-- Everything one step can do to the core: nothing, reset it, or run the request in progress. -/
theorem step_core {s t : State} (h : step s = .next t) :
    (t.life = s.life ∧ t.params = s.params ∧ t.response = s.response) ∨
    (∃ rest, s.schedule = .reset :: rest ∧ t = resetCore { s with schedule := rest }) ∨
    (∃ f u s1, s1.life = s.life ∧ s1.params = s.params ∧ s.inProgress = some f ∧ runRequest f.req s1 = .next u ∧
      t.life = u.life ∧ t.params = u.params ∧ t.response = u.response ∧ t.inProgress = none) := by
  rcases step_cases h with ⟨_, hc⟩ | ⟨rest, _, hc⟩ | ⟨n, rest, _, hp⟩ | ⟨rest, hs, rfl⟩
  · rcases complete_core hc with rfl | ⟨f, u, hf, hu, h1, h2, h3, h4⟩
    · exact .inl ⟨rfl, rfl, rfl⟩
    · exact .inr (.inr ⟨f, u, _, rfl, rfl, hf, hu, h1, h2, h3, h4⟩)
  · rcases complete_core hc with rfl | ⟨f, u, hf, hu, h1, h2, h3, h4⟩
    · exact .inl ⟨rfl, rfl, rfl⟩
    · exact .inr (.inr ⟨f, u, { s with schedule := rest }, rfl, rfl, hf, hu, h1, h2, h3, h4⟩)
  · have := present_core hp
    exact .inl ⟨this.1, this.2.1, this.2.2.1⟩
  · exact .inr (.inl ⟨rest, hs, rfl⟩)

end Sys2Proof.Machine
end

