-- ==== Sys2Proof/Laws/KeySchedule.lean ====
section
/-! SUPPORT. The mixing pass, one iteration at its end, and the table before it in closed form. -/

namespace Sys2Proof.Machine

/-- One more iteration, after the others. -/
theorem mixTimes_succ (n : Nat) (m : Mixing) : mixTimes (n + 1) m = mixStep (mixTimes n m) := by
  induction n generalizing m with
  | zero => rfl
  | succ n ih =>
    rw [mixTimes, ih (mixStep m)]
    rfl

/-- Iterations add up. -/
theorem mixTimes_add (n k : Nat) (m : Mixing) : mixTimes (n + k) m = mixTimes k (mixTimes n m) := by
  induction k with
  | zero => rfl
  | succ k ih => rw [← Nat.add_assoc, mixTimes_succ, mixTimes_succ, ih]

/-- A word of the table before mixing. -/
theorem magicWord_toNat (n : Nat) : (magicWord n).toNat = (0xB7E15163 + n * 0x9E3779B9) % 2 ^ 32 := by
  induction n with
  | zero => simp [magicWord, Config.P32]
  | succ n ih =>
    rw [magicWord, add32, BitVec.toNat_add, ih, show Config.Q32.toNat = 0x9E3779B9 by decide]
    omega

end Sys2Proof.Machine
end

