-- ==== Sys2Proof/Laws/PerInstr.lean ====
section
/-! SUPPORT. Facts about each command's request as it is encoded, one lemma per command. -/

namespace Sys2Proof.Laws.CommandWord

/-- The command's word has its code in `OP`, zero in both reserved fields, and an index only for RDSK
(spec/30_encoding.md R57, R58). -/
def Statement (i : Instr) : Prop :=
  opField (encode i).cmd = opCode i ∧ rsv0Field (encode i).cmd = 0#4 ∧ rsv1Field (encode i).cmd = 0#19 ∧
    ((∀ k, i ≠ .rdsk k) → idxField (encode i).cmd = 0#5)

theorem keyinit (key : Key) : Statement (.keyinit key) := by simp [Statement, encode, opCode]

theorem encblk (p : Block) : Statement (.encblk p) := by simp [Statement, encode, opCode]

theorem decblk (c : Block) : Statement (.decblk c) := by simp [Statement, encode, opCode]

theorem rdsk (k : Nat) : Statement (.rdsk k) := by simp [Statement, encode, opCode]

theorem rdck : Statement .rdck := by simp [Statement, encode, opCode]

end Sys2Proof.Laws.CommandWord
end

