-- ==== Sys2Proof/Laws/Primitives.lean ====
section
/-! SUPPORT. The rotations, bit by bit. -/

namespace Sys2Proof.Machine

/-- The low 5 bits of a rotation amount, as a number. -/
theorem amount_toNat (n : Word) : (n.extractLsb' 0 5).toNat = n.toNat % 32 := by
  simp [BitVec.extractLsb']

/-- Bit `m` of ROTL32. -/
theorem rotl_getLsbD (x n : Word) (m : Nat) (hm : m < 32) :
    (rotl x n).getLsbD m = x.getLsbD ((m + 32 - n.toNat % 32) % 32) := by
  unfold rotl
  generalize hs : n.toNat % 32 = s
  have : s < 32 := by omega
  simp only []
  split
  · next h =>
    subst h
    simp
    congr 1
    omega
  · next h =>
    rw [BitVec.getLsbD_or, BitVec.getLsbD_shiftLeft, BitVec.getLsbD_ushiftRight]
    by_cases hms : m < s
    · rw [show (m + 32 - s) % 32 = 32 - s + m by omega]
      simp [hms]
    · rw [show (m + 32 - s) % 32 = m - s by omega]
      simp [hms, hm]
      intro h2
      exact absurd (BitVec.lt_of_getLsbD h2) (by omega)

/-- Bit `m` of ROTR32. -/
theorem rotr_getLsbD (x n : Word) (m : Nat) (hm : m < 32) :
    (rotr x n).getLsbD m = x.getLsbD ((m + n.toNat % 32) % 32) := by
  unfold rotr
  generalize hs : n.toNat % 32 = s
  have : s < 32 := by omega
  simp only []
  split
  · next h =>
    subst h
    simp
    congr 1
    omega
  · next h =>
    rw [BitVec.getLsbD_or, BitVec.getLsbD_shiftLeft, BitVec.getLsbD_ushiftRight]
    by_cases hms : m < 32 - s
    · rw [show (m + s) % 32 = s + m by omega]
      simp [hms]
    · rw [show (m + s) % 32 = m - (32 - s) by omega]
      simp [hms, hm]
      intro h2
      exact absurd (BitVec.lt_of_getLsbD h2) (by omega)

end Sys2Proof.Machine
end

