-- ==== Sys2Proof/Laws/Sessions.lean ====
section
/-! SUPPORT. What one request, and one command, of a session does. -/

namespace Sys2Proof.Safety

open Sys2Proof.Machine

/-- Every request of a session is answered. -/
theorem issue_of_run {r : Request} {s t : State} {resp : Response} (h : runRequest r s = .next t)
    (hr : t.response = some resp) : issue r s = some (t, resp) := by
  simp [issue, h, hr]

/-- A command of a session, as a request. -/
theorem issue_command {r : Request} {i : Instr} (h : decode r = .command i) (s : State) : issue r s = perform i s := by
  simp only [issue, perform, runRequest_command h]

/-- A request that leaves the chain leaves the whole core as it is, and is answered. -/
theorem issue_of_leavesChain {r : Request} (h : leavesChain r = true) (s : State) :
    ∃ t resp, issue r s = some (t, resp) ∧ t.life = s.life ∧ t.params = s.params := by
  unfold leavesChain at h
  rcases runRequest_cases r s with ⟨_, _, e⟩ | ⟨_, hd, _⟩ | ⟨_, _, _, hd, _, _⟩ | ⟨_, _, _, hd, _, _⟩ | ⟨_, _, _, _, _, e⟩
  · exact ⟨_, _, issue_of_run e rfl, rfl, rfl⟩
  · simp [hd] at h
  · simp [hd] at h
  · simp [hd] at h
  · exact ⟨_, _, issue_of_run e rfl, rfl, rfl⟩

/-- A request that leaves the chain is no block command. -/
theorem blockOf_of_leavesChain {r : Request} (h : leavesChain r = true) : blockOf r = none := by
  unfold leavesChain at h
  unfold blockOf
  split at h <;> simp_all

/-- ENCBLK in a session on a keyed core. -/
theorem perform_encblk {s : State} {S : SubkeyTable} {ck : Block} (h : s.life = .keyed S ck) (p : Block) :
    perform (.encblk p) s =
      some (respond .ok (packBlock (encodeBlock S (xorBlock p ck))) (writeChain S (encodeBlock S (xorBlock p ck)) s),
        okBlock (encodeBlock S (xorBlock p ck))) := by
  simp only [perform, show exec (.encblk p) s = _ from requireKeyed_keyed h _]
  rfl

/-- DECBLK in a session on a keyed core. -/
theorem perform_decblk {s : State} {S : SubkeyTable} {ck : Block} (h : s.life = .keyed S ck) (c : Block) :
    perform (.decblk c) s =
      some (respond .ok (packBlock (xorBlock (decodeBlock S c) ck)) (writeChain S c s),
        okBlock (xorBlock (decodeBlock S c) ck)) := by
  simp only [perform, show exec (.decblk c) s = _ from requireKeyed_keyed h _]
  rfl

end Sys2Proof.Safety
end

