-- ==== Sys2Proof/Tests/Slice0.lean ====
section
/-! SUPPORT. Tests of this model, with the values of spec/95_test_vectors.md, and for each statement with hypotheses a witness
that meets them (theorem `witness_<statement>`). -/

namespace Sys2Proof.Tests

open Sys2Proof Sys2Proof.Machine Sys2Proof.Safety

set_option Elab.async false

/-! ## Helpers -/

/-- The next state, if there is one. -/
def answer (o : Host.Outcome State Fault Refusal) : Option State :=
  match o with
  | .next s => some s
  | .fault _ => none
  | .refused _ => none

/-- What a check of the next state says about the outcome. -/
theorem next_of {o : Host.Outcome State Fault Refusal} {P : State → Bool} (h : (answer o).any P = true) :
    ∃ t, o = .next t ∧ P t = true := by
  cases o with
  | next s => exact ⟨s, rfl, h⟩
  | fault e => cases e
  | refused e => cases h

/-- An idle core, not keyed, with these parameters. -/
def fresh (iv0 iv1 : Word) : State := { State.reset with params := ⟨iv0, iv1⟩ }

/-- An idle core keyed with 16 zero bytes, its IV (0, 0), and this chain vector. -/
def keyed0 (ck : Block) : State := { fresh 0#32 0#32 with life := .keyed (expand 0#128) ck }

/-- The block that the zero key makes of the zero block. -/
def c1 : Block := ⟨0xEEDBA521#32, 0x6D8F4B15#32⟩

/-- The core with this request in progress, from an agent outside the list. -/
def busy (r : Request) (s : State) : State := { s with inProgress := some ⟨5, r⟩ }

/-- Host memory with these bytes from address 0. -/
def bytes (vs : List Byte) : List Host.Cell := (List.range vs.length).zip vs

/-- The first bytes of host memory. -/
def dump (m : List Host.Cell) (n : Nat) : List (Option Byte) := (List.range n).map (readByte m)

/-- A core with one agent that has this stream call to do over 16 bytes of memory, and these events to come. -/
def caller (c : StreamCall) (events : List Event) (s : State) : State :=
  { solo [.stream c] events s with mem := bytes (List.replicate 16 0x00#8) }

/-! ## Parameters and well-formed terms -/

/-- spec/00_scope.md R8. -/
theorem test_parameters : Config.T = 26 ∧ Config.C = 4 ∧ Config.NMIX = 78 ∧ Config.P32 = 0xB7E15163#32 ∧
    Config.Q32 = 0x9E3779B9#32 := by decide

/-- An index that `IDX` cannot hold is refused (spec/30_encoding.md R57). -/
theorem test_wellFormed_refuses_wide_index : (Instr.rdsk 32).wellFormed = false := by decide

theorem test_wellFormed_accepts : (Instr.rdsk 31).wellFormed = true ∧ (Instr.keyinit 0#128).wellFormed = true ∧
    (Instr.encblk ⟨0#32, 0#32⟩).wellFormed = true ∧ (Instr.decblk ⟨0#32, 0#32⟩).wellFormed = true ∧
    Instr.rdck.wellFormed = true := by decide

/-! ## Decoding: words written out as `RSV1 ++ IDX ++ RSV0 ++ OP` (spec/30_encoding.md R57, R58) -/

theorem test_decode_keyinit :
    decode ⟨0b0000000000000000000#19 ++ 0b00000#5 ++ 0b0000#4 ++ 0b0001#4, 7#128, 9#64⟩ = .command (.keyinit 7#128) := by
  decide +kernel

theorem test_decode_encblk :
    decode ⟨0b0000000000000000000#19 ++ 0b00000#5 ++ 0b0000#4 ++ 0b0010#4, 7#128, 0x0706050403020100#64⟩ =
      .command (.encblk ⟨0x03020100#32, 0x07060504#32⟩) := by decide +kernel

theorem test_decode_decblk :
    decode ⟨0b0000000000000000000#19 ++ 0b00000#5 ++ 0b0000#4 ++ 0b0011#4, 7#128, 0x0706050403020100#64⟩ =
      .command (.decblk ⟨0x03020100#32, 0x07060504#32⟩) := by decide +kernel

theorem test_decode_rdsk :
    decode ⟨0b0000000000000000000#19 ++ 0b11001#5 ++ 0b0000#4 ++ 0b0100#4, 7#128, 9#64⟩ = .command (.rdsk 25) ∧
    decode ⟨0x00001F04#32, 0#128, 0#64⟩ = .command (.rdsk 31) := by decide +kernel

theorem test_decode_rdck :
    decode ⟨0b0000000000000000000#19 ++ 0b00000#5 ++ 0b0000#4 ++ 0b0101#4, 7#128, 9#64⟩ = .command .rdck := by
  decide +kernel

/-- V-DE-7 to V-DE-12, and the illegal words of program L3-3. -/
theorem test_decode_illegal :
    ([0x00002004#32, 0x00000014#32, 0x00000000#32, 0x00000006#32, 0x0000000F#32, 0x00000102#32, 0xFFFFFFFF#32,
      0x00000101#32, 0x00000011#32, 0x80000001#32, 0x00000105#32] : List Word).all
      (fun w => (decode ⟨w, 0#128, 0#64⟩).command? == none) = true := by decide +kernel

theorem test_decodeTableWord : decodeTableWord 32 0x1904 = some (.rdsk 25) ∧ decodeTableWord 32 0x2004 = none ∧
    decodeTableWord 32 0x1 = some (.keyinit 0#128) := by decide +kernel

/-! ## Primitive operations (V-PR) -/

/-- V-PR-1, 2, 4 and 5. -/
theorem test_add_sub : add32 0xFFFFFFFF#32 1#32 = 0#32 ∧ add32 0x80000000#32 0x80000000#32 = 0#32 ∧
    sub32 0#32 1#32 = 0xFFFFFFFF#32 ∧ sub32 0x9BBBD8C8#32 0x9BBBD8C9#32 = 0xFFFFFFFF#32 := by decide

/-- V-PR-8, 10, 12 and 13. -/
theorem test_rotl : rotl 0x12345678#32 32#32 = 0x12345678#32 ∧ rotl 0x12345678#32 0xFFFFFFE4#32 = 0x23456781#32 ∧
    rotl 0x80000001#32 31#32 = 0xC0000000#32 ∧ rotl 0xDEADBEEF#32 16#32 = 0xBEEFDEAD#32 := by decide

/-- V-PR-17, 18, 19 and 21. -/
theorem test_rotr : rotr 0x12345678#32 32#32 = 0x12345678#32 ∧ rotr 0x12345678#32 4#32 = 0x81234567#32 ∧
    rotr 0x12345678#32 0xFFFFFFE4#32 = 0x81234567#32 ∧ rotr 0x80000001#32 31#32 = 0x00000003#32 := by decide

/-! ## Key schedule and block functions -/

/-- V-KS-0. -/
theorem test_magic_table : magicTable.toList = [
     0xB7E15163#32, 0x5618CB1C#32, 0xF45044D5#32, 0x9287BE8E#32, 0x30BF3847#32, 0xCEF6B200#32, 0x6D2E2BB9#32,
     0x0B65A572#32, 0xA99D1F2B#32, 0x47D498E4#32, 0xE60C129D#32, 0x84438C56#32, 0x227B060F#32, 0xC0B27FC8#32,
     0x5EE9F981#32, 0xFD21733A#32, 0x9B58ECF3#32, 0x399066AC#32, 0xD7C7E065#32, 0x75FF5A1E#32, 0x1436D3D7#32,
     0xB26E4D90#32, 0x50A5C749#32, 0xEEDD4102#32, 0x8D14BABB#32, 0x2B4C3474#32] := by decide +kernel

/-- V-KS-2: the byte order of key loading. -/
theorem test_expand_byte_order : (expand 0x0F0E0D0C0B0A09080706050403020100#128).toList = [
     0xD447E233#32, 0xD82EEC20#32, 0x84FCE219#32, 0xB93353DE#32, 0x5AC2588F#32, 0x48E922F1#32, 0x879F5460#32,
     0x1A693A4B#32, 0x5171B55F#32, 0x9A206E4D#32, 0x9966C4A0#32, 0xB166B0D7#32, 0x89CC6827#32, 0xCBE1B9B7#32,
     0x1BB7F44F#32, 0x638829B4#32, 0x4DA0AB3A#32, 0x74E54561#32, 0x5EB4DEE9#32, 0xBEF10188#32, 0x728A511F#32,
     0x37A8DEBC#32, 0x5735676A#32, 0xF96B764A#32, 0x7AEC5407#32, 0x15E8E206#32] := by decide +kernel

/-- V-KS-5: the last bit of the key. -/
theorem test_expand_last_bit : (expand 0x80000000000000000000000000000000#128).toList = [
     0xF1B9A2A8#32, 0x9544A948#32, 0x2E25858D#32, 0xFFBC88BD#32, 0xE54F661F#32, 0xA0EBA6E8#32, 0x0318BB44#32,
     0x939DFB38#32, 0xAED1FCEC#32, 0xC8BE9403#32, 0x17405EA4#32, 0xFDAD3014#32, 0x62F07444#32, 0xD813C40C#32,
     0x043B7270#32, 0xA6CB54DD#32, 0xDC7A6A69#32, 0x81ADCD58#32, 0x4BAEE113#32, 0x55C9BB73#32, 0x2CA8B709#32,
     0x4B98B4BE#32, 0xDB9DE57A#32, 0x9DEB6DC9#32, 0xD535228F#32, 0x8CC8868C#32] := by decide +kernel

/-- The published vectors of section 1.2. -/
theorem test_published_vectors :
  encodeBlock (expand 0x00000000000000000000000000000000#128) ⟨0x00000000#32, 0x00000000#32⟩ = ⟨0xEEDBA521#32, 0x6D8F4B15#32⟩ ∧
  encodeBlock (expand 0x91CEA91001A5556351B241BE19465F91#128) ⟨0xEEDBA521#32, 0x6D8F4B15#32⟩ = ⟨0xAC13C0F7#32, 0x52892B5B#32⟩ ∧
  encodeBlock (expand 0x8767C18DBB69B1D72F0FEB5AE7483378#128) ⟨0xAC13C0F7#32, 0x52892B5B#32⟩ = ⟨0xB7B3422F#32, 0x92FC6903#32⟩ ∧
  encodeBlock (expand 0xAF2BF1B513B485644F58A57513DB49DC#128) ⟨0xB7B3422F#32, 0x92FC6903#32⟩ = ⟨0xB278C165#32, 0xCC97D184#32⟩ ∧
  encodeBlock (expand 0x2531157F4D57972415A01BD449F16952#128) ⟨0xB278C165#32, 0xCC97D184#32⟩ = ⟨0x15E444EB#32, 0x249831DA#32⟩ := by decide +kernel

/-- V-BC-M6, M9 and M15: both directions. -/
theorem test_block_functions :
  encodeBlock (expand 0x0F0E0D0C0B0A09080706050403020100#128) ⟨0x01234567#32, 0x89ABCDEF#32⟩ = ⟨0x6F7135F6#32, 0x0EB5252A#32⟩ ∧
  decodeBlock (expand 0x0F0E0D0C0B0A09080706050403020100#128) ⟨0x01234567#32, 0x89ABCDEF#32⟩ = ⟨0xBD28D448#32, 0xCF884211#32⟩ ∧
  encodeBlock (expand 0xFFFFFFFFFFFFFFFFFFFFFFFFFFFFFFFF#128) ⟨0x01234567#32, 0x89ABCDEF#32⟩ = ⟨0xA7916885#32, 0xE6F7EEF3#32⟩ ∧
  decodeBlock (expand 0xFFFFFFFFFFFFFFFFFFFFFFFFFFFFFFFF#128) ⟨0x01234567#32, 0x89ABCDEF#32⟩ = ⟨0x7BA36BB3#32, 0x73E53B2B#32⟩ ∧
  encodeBlock (expand 0x80000000000000000000000000000000#128) ⟨0x01234567#32, 0x89ABCDEF#32⟩ = ⟨0x196E7D95#32, 0x8FE4E4FF#32⟩ ∧
  decodeBlock (expand 0x80000000000000000000000000000000#128) ⟨0x01234567#32, 0x89ABCDEF#32⟩ = ⟨0x4E49C3BF#32, 0x454FABD4#32⟩ := by decide +kernel

/-! ## One command at a time -/

/-- Program L3-1 line 1, and the IV of program L3-2 line 1. -/
theorem test_keyinit : (answer (exec (.keyinit 0#128) (fresh 0x12345678#32 0x9ABCDEF0#32))).any (fun t =>
    t.CK == some ⟨0x12345678#32, 0x9ABCDEF0#32⟩ && t.response == some ⟨.ok, 0#64⟩ &&
      t.S.any (fun S => S[0] == 0x9BBBD8C8#32 && S[25] == 0x65046380#32)) = true := by decide +kernel

/-- V-CBC-4: the first block is chained to the IV. -/
theorem test_encblk_iv : (answer (exec (.encblk ⟨0#32, 0#32⟩) (keyed0 ⟨0xFFFFFFFF#32, 0xFFFFFFFF#32⟩))).any (fun t =>
    t.CK == some ⟨0x4C719ECA#32, 0x593EFF1F#32⟩ && t.response == some ⟨.ok, 0x593EFF1F4C719ECA#64⟩) = true := by
  decide +kernel

/-- V-CBC-3: the same plaintext again. -/
theorem test_encblk_chain : (answer (exec (.encblk ⟨0#32, 0#32⟩) (keyed0 c1))).any (fun t =>
    t.CK == some ⟨0xDA1DF638#32, 0x6147C106#32⟩ && t.response == some ⟨.ok, 0x6147C106DA1DF638#64⟩) = true := by
  decide +kernel

/-- V-CBC-6: CK gets the input ciphertext. -/
theorem test_decblk_captures : (answer (exec (.decblk ⟨0#32, 0#32⟩) (keyed0 ⟨0#32, 0#32⟩))).any (fun t =>
    t.CK == some ⟨0#32, 0#32⟩ && t.response == some ⟨.ok, 0x9616F90F48E56C13#64⟩) = true := by decide +kernel

/-- V-CBC-7: the exclusive-or uses the old CK. -/
theorem test_decblk_old_chain : (answer (exec (.decblk c1) (keyed0 c1))).any (fun t =>
    t.CK == some c1 && t.response == some ⟨.ok, 0x6D8F4B15EEDBA521#64⟩) = true := by decide +kernel

/-- V-DE-3: the last subkey. -/
theorem test_rdsk_last : (answer (runRequest ⟨0x00001904#32, 0#128, 0#64⟩ (keyed0 c1))).any (fun t =>
    t.CK == some c1 && t.response == some ⟨.ok, 0x0000000065046380#64⟩) = true := by decide +kernel

/-- V-DE-4 and V-DE-6: an index out of range, keyed and not keyed. -/
theorem test_rdsk_out_of_range :
    (answer (runRequest ⟨0x00001A04#32, 0#128, 0#64⟩ (keyed0 c1))).any
      (fun t => t.response == some ⟨.errBadIndex, 0#64⟩) = true ∧
    (answer (runRequest ⟨0x00001A04#32, 0#128, 0#64⟩ (fresh 0#32 0#32))).any
      (fun t => t.response == some ⟨.errNotKeyed, 0#64⟩) = true := by decide +kernel

/-- Program L3-1 line 3. -/
theorem test_rdck : (answer (exec .rdck (keyed0 c1))).any (fun t =>
    t.CK == some c1 && t.response == some ⟨.ok, 0x6D8F4B15EEDBA521#64⟩) = true := by decide +kernel

/-- Program L3-3 lines 5 and 11. -/
theorem test_errors_before_keyinit :
    (answer (exec .rdck (fresh 0#32 0#32))).any (fun t => t.response == some ⟨.errNotKeyed, 0#64⟩) = true ∧
    (answer (runRequest ⟨0x80000001#32, 0#128, 0#64⟩ (fresh 0#32 0#32))).any
      (fun t => t.response == some ⟨.errIllegalCmd, 0#64⟩ && t.KEYED == false) = true := by decide +kernel

/-! ## One step -/

/-- The first instruction after reset: a placed KEYINIT keys the core. -/
theorem test_step_placed_keyinit : (answer (step (State.reset.withFetchWord 32 0x1))).any (fun t =>
    t.KEYED && t.S.any (fun S => S[25] == 0x65046380#32) && t.response == some ⟨.ok, 0#64⟩) = true := by decide +kernel

/-- Program L3-3 line 5, as the first instruction after reset. -/
theorem test_step_placed_rdck : (answer (step (State.reset.withFetchWord 32 0x5))).any (fun t =>
    t.response == some ⟨.errNotKeyed, 0#64⟩ && t.schedule == [] && t.inProgress == none) = true := by decide +kernel

/-- Program L3-4: the first block of ENCSTREAM from address 0 to address 0, in place. -/
theorem test_stream_block :
    (answer (step { keyed0 ⟨0#32, 0#32⟩ with
      agents := [⟨[.stream ⟨.enc, 0, 0, 20⟩], none, []⟩]
      inProgress := some ⟨0, ⟨0x00000002#32, 0#128, 0x0706050403020100#64⟩⟩
      mem := bytes ((List.range 20).map fun n => BitVec.ofNat 8 n) })).any (fun t =>
      dump t.mem 9 == [some 0xD9#8, some 0xD3#8, some 0x70#8, some 0x19#8, some 0xAE#8, some 0xC1#8, some 0x16#8,
        some 0x1B#8, some 0x08#8] &&
      t.agents == [⟨[.stream ⟨.enc, 8, 8, 12⟩], none, []⟩]) = true := by decide +kernel

/-- V-ST-6: a stream call before any KEYINIT stops and writes nothing. -/
theorem test_stream_not_keyed :
    (answer (step { caller ⟨.enc, 8, 0, 8⟩ [] (fresh 0#32 0#32) with
      inProgress := some ⟨0, ⟨0x00000002#32, 0#128, 0#64⟩⟩ })).any (fun t =>
      t.agents == [⟨[], none, [.returned .errNotKeyed]⟩] && t.mem == bytes (List.replicate 16 0x00#8)) = true := by
  decide +kernel

/-- spec/70_reset_and_hazards.md R190: the second agent is held. -/
theorem test_busy_core_holds :
    (answer (step { busy ⟨5#32, 0#128, 0#64⟩ (keyed0 c1) with
      agents := [⟨[.command ⟨1#32, 0#128, 0#64⟩], none, []⟩], schedule := [.present 0] })).any (fun t =>
      t.agents == [⟨[.command ⟨1#32, 0#128, 0#64⟩], some ⟨1#32, 0#128, 0#64⟩, []⟩] &&
      t.inProgress == some ⟨5, ⟨5#32, 0#128, 0#64⟩⟩) = true := by decide +kernel

/-- spec/30_encoding.md R70: the index is decimal, 0 to 31; a key has 32 digits; words have `0x`. -/
theorem test_assembler_refuses : parseLine "RDSK 32".toList = none ∧ parseLine "RDSK 0x19".toList = none ∧
    parseLine "KEYINIT 00".toList = none ∧ parseLine "ENCBLK 03020100, 0x0".toList = none ∧
    parseLine "NOP".toList = none := by decide +kernel

/-! ## Witnesses of the hypotheses -/

theorem witness_RotlMovesBitsLeft : 31 < 32 ∧ (32#32).extractLsb' 0 5 = 0#5 ∧
    (0xFFFFFFE4#32).extractLsb' 0 5 = (4#32).extractLsb' 0 5 ∧ (31#32).extractLsb' 0 5 ≠ 0#5 := by decide

theorem witness_RotrUndoesRotl : 31 < 32 ∧ (32#32).extractLsb' 0 5 = 0#5 ∧
    (0xFFFFFFE4#32).extractLsb' 0 5 = (4#32).extractLsb' 0 5 ∧ (31#32).extractLsb' 0 5 ≠ 0#5 := by decide

/-- The last bit of a byte and the last word. -/
theorem witness_KeyWordsAreLittleEndian : (7 : Nat) < 8 ∧ (3 : Nat) < 4 := by decide

theorem witness_BlockFieldIsBThenA : (keyed0 c1).life = .keyed (expand 0#128) c1 := rfl

theorem witness_HostMemoryIsLittleEndian :
    (∃ t, runRequest ⟨1#32, 0#128, 0#64⟩ (fresh 0#32 0#32) = .next t ∧ t.KEYED = true) ∧
    memRead (bytes [0x11#8, 0x22#8]) 0 2 = some 0x2211#16 ∧
    (∀ k, k < 2 → readByte (bytes [0x11#8, 0x22#8]) (0 + k) ≠ none) ∧
    memWrite (bytes [0x11#8, 0x22#8]) 1 1 0x33#8 = some (bytes [0x11#8, 0x33#8]) :=
  ⟨next_of (P := fun t => t.KEYED) (by decide +kernel), by decide +kernel, by decide +kernel, by decide +kernel⟩

theorem witness_StreamBytesFormABlock :
    memRead (bytes (List.replicate 16 0x00#8)) 8 8 = some 0#64 ∧
    memWrite (bytes (List.replicate 8 0x00#8)) 0 8 (packBlock ⟨0#32, 0#32⟩) = some (bytes (List.replicate 8 0x00#8)) ∧
    buffersOk (bytes (List.replicate 16 0x00#8)) ⟨.enc, 0, 8, 8⟩ = true ∧
    (caller ⟨.enc, 0, 8, 8⟩ [] (keyed0 c1)).agents[0]? = some ⟨[.stream ⟨.enc, 0, 8, 8⟩], none, []⟩ := by decide +kernel

theorem witness_DecodeOfEncode : ∀ i ∈ [Instr.keyinit 1#128, .encblk c1, .decblk c1, .rdsk 0, .rdsk 31, .rdck],
    i.wellFormed = true := by decide

theorem witness_EncodeOfDecode : decode ⟨1#32, 5#128, 9#64⟩ = .command (.keyinit 5#128) ∧
    decode ⟨2#32, 5#128, 0#64⟩ = .command (.encblk ⟨0#32, 0#32⟩) ∧
    decode ⟨3#32, 5#128, 0#64⟩ = .command (.decblk ⟨0#32, 0#32⟩) ∧
    decode ⟨0x1F04#32, 5#128, 9#64⟩ = .command (.rdsk 31) ∧ decode ⟨5#32, 5#128, 9#64⟩ = .command .rdck := by
  decide +kernel

theorem witness_CommandWordsAreTheTableRows :
    (OpcodeRow.mk "RDSK" 0x00000004#32 0xFFFFE0FF#32) ∈ opcodeRows ∧
    (OpcodeRow.mk "RDSK" 0x00000004#32 0xFFFFE0FF#32).selects 0x00001F04#32 = true ∧
    (OpcodeRow.mk "RDCK" 0x00000005#32 0xFFFFFFFF#32) ∈ opcodeRows ∧
    (OpcodeRow.mk "RDCK" 0x00000005#32 0xFFFFFFFF#32).selects 0x00000005#32 = true ∧
    decode ⟨0x00001F04#32, 0#128, 0#64⟩ = .command (.rdsk 31) := by decide +kernel

theorem witness_IllegalWordsAreRefused : decode ⟨0x00000102#32, 0#128, 0#64⟩ = .illegal .indexNotZero ∧
    decode ⟨0x80000001#32, 0#128, 0#64⟩ = .illegal .reservedBits ∧ decode ⟨0#32, 0#128, 0#64⟩ = .illegal .reservedOp := by
  decide +kernel

/-- Two requests that differ only in fields their commands do not use. -/
theorem witness_IgnoredFieldsHaveNoEffect :
    ((Request.mk 1#32 7#128 0#64).key = (Request.mk 1#32 7#128 1#64).key ∧ (0#64 : DWord) ≠ 1#64) ∧
    ((Request.mk 3#32 0#128 7#64).din = (Request.mk 3#32 1#128 7#64).din ∧ (0#128 : Key) ≠ 1#128) ∧
    (0x1904#32 : Word) ≠ 1#32 ∧ (0x1904#32 : Word) ≠ 2#32 ∧ (0x1904#32 : Word) ≠ 3#32 :=
  ⟨⟨rfl, by decide⟩, ⟨rfl, by decide⟩, by decide, by decide, by decide⟩

theorem witness_StatusCodesAreAsListed :
    ∃ t, runRequest ⟨0x1A04#32, 0#128, 0#64⟩ (keyed0 c1) = .next t ∧
      (t.response == some ⟨.errBadIndex, 0#64⟩) = true := next_of (by decide +kernel)

theorem witness_KeyinitInstallsKey :
    ((0x00000011#32).extractLsb' 0 4 = 0x1#4 ∧ 0x00000011#32 ≠ 0x00000001#32) ∧
    ((0x00000101#32).extractLsb' 0 4 = 0x1#4 ∧ 0x00000101#32 ≠ 0x00000001#32) ∧
    ((0x80000001#32).extractLsb' 0 4 = 0x1#4 ∧ 0x80000001#32 ≠ 0x00000001#32) := by decide

theorem witness_EncblkChainsAndEncodes : (keyed0 c1).life = .keyed (expand 0#128) c1 ∧
    (fresh 0#32 0#32).life = .uninitialized ∧ (0x00000102#32).extractLsb' 0 4 = 0x2#4 ∧ 0x00000102#32 ≠ 0x00000002#32 ∧
    (keyed0 ⟨0#32, 0#32⟩).life = .keyed (expand 0#128) ⟨0#32, 0#32⟩ :=
  ⟨rfl, rfl, by decide, by decide, rfl⟩

theorem witness_DecblkDecodesAndCaptures : (keyed0 c1).life = .keyed (expand 0#128) c1 ∧
    (fresh 0#32 0#32).life = .uninitialized ∧ (0x80000003#32).extractLsb' 0 4 = 0x3#4 ∧ 0x80000003#32 ≠ 0x00000003#32 ∧
    (keyed0 ⟨0#32, 0#32⟩).life = .keyed (expand 0#128) ⟨0#32, 0#32⟩ :=
  ⟨rfl, rfl, by decide, by decide, rfl⟩

/-- Indices 25, 26 and 31, both states, and both reserved fields. -/
theorem witness_RdskReadsOneSubkey : 0x00001F04#32 &&& 0xFFFFE0FF#32 = 0x00000004#32 ∧ 25 < 26 ∧ 26 ≤ 26 ∧ 26 ≤ 31 ∧
    (keyed0 c1).life = .keyed (expand 0#128) c1 ∧ (fresh 0#32 0#32).life = .uninitialized ∧
    ((0x00000014#32).extractLsb' 0 4 = 0x4#4 ∧ (0x00000014#32).extractLsb' 4 4 ≠ 0#4) ∧
    ((0x00002004#32).extractLsb' 0 4 = 0x4#4 ∧ (0x00002004#32).extractLsb' 13 19 ≠ 0#19) :=
  ⟨by decide, by decide, by decide, by decide, rfl, rfl, by decide, by decide⟩

theorem witness_RdckReadsTheChain : (keyed0 c1).life = .keyed (expand 0#128) c1 ∧ (keyed0 c1).KEYED = true ∧
    (fresh 0#32 0#32).life = .uninitialized ∧ (0x00000105#32).extractLsb' 0 4 = 0x5#4 ∧ 0x00000105#32 ≠ 0x00000005#32 ∧
    (∃ t, exec (.keyinit 0#128) (fresh 1#32 2#32) = .next t) ∧ (∃ t, exec (.encblk c1) (keyed0 c1) = .next t) ∧
    (∃ t, exec (.decblk c1) (keyed0 c1) = .next t) ∧
    (fresh 0#32 0#32).params = ⟨0#32, 0#32⟩ :=
  ⟨rfl, rfl, rfl, by decide, by decide, ⟨_, rfl⟩, ⟨_, rfl⟩, ⟨_, rfl⟩, rfl⟩

/-- In the last clause of RDCK's statement, the three commands run one after the other. -/
theorem witness_RdckReadsTheChain_example : ∃ t u v, exec (.keyinit 0#128) (fresh 0#32 0#32) = .next t ∧
    exec (.encblk ⟨0#32, 0#32⟩) t = .next u ∧ exec .rdck u = .next v := ⟨_, _, _, rfl, rfl, rfl⟩

theorem witness_WhichCommandsAreIdempotent :
    (∃ t u, exec .rdck (keyed0 c1) = .next t ∧ exec .rdck t = .next u) ∧
    (∃ t u, exec (.rdsk 25) (fresh 0#32 0#32) = .next t ∧ exec (.rdsk 25) t = .next u) ∧
    (∃ t u, exec (.keyinit 1#128) (keyed0 c1) = .next t ∧ exec (.keyinit 1#128) t = .next u) ∧
    (∃ t, exec (.encblk c1) (fresh 0#32 0#32) = .next t ∧ t.response = some ⟨.errNotKeyed, 0#64⟩) :=
  ⟨⟨_, _, rfl, rfl⟩, ⟨_, _, rfl, rfl⟩, ⟨_, _, rfl, rfl⟩, ⟨_, rfl, rfl⟩⟩

theorem witness_CommandFrames : (∃ t, exec (.encblk c1) (keyed0 c1) = .next t) ∧
    (∀ key, Instr.encblk c1 ≠ .keyinit key) ∧ (∃ t, exec (.keyinit 0#128) (fresh 0#32 0#32) = .next t) ∧
    (∃ t, exec .rdck (keyed0 c1) = .next t) ∧ (∀ key, Instr.rdck ≠ .keyinit key) ∧
    (∀ x, Instr.rdck ≠ .encblk x ∧ Instr.rdck ≠ .decblk x) :=
  ⟨⟨_, rfl⟩, by simp, ⟨_, rfl⟩, ⟨_, rfl⟩, by simp, by simp⟩

theorem witness_ErrorsChangeNothing : ∃ t, runRequest ⟨0x1F04#32, 0#128, 0#64⟩ (keyed0 c1) = .next t ∧
    (t.response == some ⟨.errBadIndex, 0#64⟩) = true := next_of (by decide +kernel)

theorem witness_NotKeyedError : (fresh 0#32 0#32).KEYED = false ∧ (∀ key, Instr.rdck ≠ .keyinit key) ∧
    (∃ t, runRequest ⟨2#32, 0#128, 0#64⟩ (fresh 0#32 0#32) = .next t ∧
      (t.response == some ⟨.errNotKeyed, 0#64⟩) = true) :=
  ⟨rfl, by simp, next_of (by decide +kernel)⟩

theorem witness_IllegalCommandError :
    (∀ row ∈ opcodeRows, row.selects 0x00002004#32 = false) ∧
    (∃ t, runRequest ⟨0x00002004#32, 0#128, 0#64⟩ (fresh 0#32 0#32) = .next t ∧
      (t.response == some ⟨.errIllegalCmd, 0#64⟩) = true) ∧
    (∃ t, runRequest ⟨0x00000000#32, 0#128, 0#64⟩ (keyed0 c1) = .next t ∧
      (t.response == some ⟨.errIllegalCmd, 0#64⟩) = true) :=
  ⟨by decide +kernel, next_of (by decide +kernel), next_of (by decide +kernel)⟩

theorem witness_BadIndexError : decode ⟨0x1A04#32, 0#128, 0#64⟩ = .command (.rdsk 26) ∧ (keyed0 c1).KEYED = true ∧
    (∃ t, runRequest ⟨0x1A04#32, 0#128, 0#64⟩ (keyed0 c1) = .next t ∧
      (t.response == some ⟨.errBadIndex, 0#64⟩) = true) :=
  ⟨by decide +kernel, rfl, next_of (by decide +kernel)⟩

/-- One request for each of the four clauses. -/
theorem witness_ErrorPriority :
    decode ⟨0x00000102#32, 0#128, 0#64⟩ = .illegal .indexNotZero ∧
    (decode ⟨0x00001A04#32, 0#128, 0#64⟩ = .command (.rdsk 26) ∧ (fresh 0#32 0#32).KEYED = false) ∧
    (decode ⟨0x00001A04#32, 0#128, 0#64⟩ = .command (.rdsk 26) ∧ (keyed0 c1).KEYED = true) ∧
    (decode ⟨0x00001904#32, 0#128, 0#64⟩ = .command (.rdsk 25) ∧ (keyed0 c1).KEYED = true) ∧
    (∃ t, runRequest ⟨0x00001904#32, 0#128, 0#64⟩ (keyed0 c1) = .next t ∧ t.response.isSome = true) :=
  ⟨by decide +kernel, ⟨by decide +kernel, rfl⟩, ⟨by decide +kernel, rfl⟩, ⟨by decide +kernel, rfl⟩,
    next_of (by decide +kernel)⟩

theorem witness_ErrorsAreNotSticky : ∃ t, runRequest ⟨0x00000105#32, 0#128, 0#64⟩ (keyed0 c1) = .next t ∧
    (t.response == some ⟨.errIllegalCmd, 0#64⟩) = true := next_of (by decide +kernel)

theorem witness_ExpandIsSeventyEightIterations : 24 + 1 < 26 ∧
    (∃ a b, a = rotl ((mixStart 0#128).S[(mixStart 0#128).i] + (mixStart 0#128).a + (mixStart 0#128).b) 3#32 ∧
      b = rotl ((mixStart 0#128).L[(mixStart 0#128).j] + a + (mixStart 0#128).b) (a + (mixStart 0#128).b)) :=
  ⟨by decide, _, _, rfl, rfl⟩

/-- In the session of requests, ENCBLK stands among RDSK 31, an illegal word and RDCK; the same for DECBLK. -/
theorem witness_CbcRecurrence :
    decode ⟨1#32, 0#128, 0#64⟩ = .command (.keyinit 0#128) ∧
    (leavesChain ⟨0x1F04#32, 0#128, 0#64⟩ = true ∧ leavesChain ⟨0x00000102#32, 0#128, 0#64⟩ = true ∧
      leavesChain ⟨5#32, 0#128, 0#64⟩ = true) ∧
    decode ⟨2#32, 0#128, 0#64⟩ = .command (.encblk ⟨0#32, 0#32⟩) ∧
    decode ⟨3#32, 0#128, 0#64⟩ = .command (.decblk ⟨0#32, 0#32⟩) := by decide +kernel

/-- Two blocks encrypted after KEYINIT, as in the first clause of the round trip. -/
theorem witness_CbcRoundTrip : (fresh 0#32 0#32).params = (keyed0 c1).params ∧
    (performAll [.keyinit 0#128, .encblk ⟨0#32, 0#32⟩, .encblk ⟨0#32, 0#32⟩] (fresh 0#32 0#32)).any (fun x =>
      x.2 == [⟨.ok, 0#64⟩, okBlock c1, okBlock ⟨0xDA1DF638#32, 0x6147C106#32⟩]) = true := by
  exact ⟨rfl, by decide +kernel⟩

theorem witness_ErrorPropagation : (keyed0 c1).life = .keyed (expand 0#128) c1 := rfl

theorem witness_ChainVectorIsLastCiphertext : (keyed0 c1).CK = some c1 ∧
    (performAll [.encblk ⟨0#32, 0#32⟩, .rdsk 31, .keyinit 1#128, .decblk c1, .rdck] (keyed0 c1)).isSome = true := by
  exact ⟨rfl, by decide +kernel⟩

/-- A core with a command in progress and reset asserted. -/
theorem witness_ResetAbandonsTheCommand :
    ({ busy ⟨1#32, 0#128, 0#64⟩ (keyed0 c1) with schedule := [.reset, .complete] } : State).schedule =
      .reset :: [.complete] := rfl

theorem witness_IdleCoreWaits : State.reset.schedule = [] ∧ State.reset.inProgress = none ∧
    ({ keyed0 c1 with schedule := [.complete] } : State).schedule = .complete :: [] ∧
    ({ keyed0 c1 with schedule := [.complete] } : State).inProgress = none := ⟨rfl, rfl, rfl, rfl⟩

/-- The completion clauses: with an event, with none, and for a word that does not decode. -/
theorem witness_StepRunsTheDecodedCommand : ∃ t : State,
    decode ⟨5#32, 0#128, 0#64⟩ = .command .rdck ∧
    exec .rdck (busy ⟨5#32, 0#128, 0#64⟩ (keyed0 c1)) = .next t ∧ t.response = some ⟨.ok, 0x6D8F4B15EEDBA521#64⟩ ∧
    (busy ⟨5#32, 0#128, 0#64⟩ (keyed0 c1)).schedule = [] ∧
    (busy ⟨5#32, 0#128, 0#64⟩ (keyed0 c1)).inProgress = some ⟨5, ⟨5#32, 0#128, 0#64⟩⟩ ∧
    decode ⟨0#32, 0#128, 0#64⟩ = .illegal .reservedOp :=
  ⟨_, by decide +kernel, rfl, by decide +kernel, rfl, rfl, by decide +kernel⟩

theorem witness_PlacedWordRunsNext : decodeTableWord 32 0x1F04 = some (.rdsk 31) ∧
    ∃ t, exec (.rdsk 31) { keyed0 c1 with inProgress := some ⟨0, requestOfNumber 32 0x1F04⟩ } = .next t :=
  ⟨by decide +kernel, _, rfl⟩

/-- One agent with a command; idle core, busy core, and an idle core with the agent held. -/
theorem witness_AcceptWhenIdleHoldWhenBusy :
    let ag : Agent := ⟨[.command ⟨5#32, 0#128, 0#64⟩], none, []⟩
    let s : State := { keyed0 c1 with agents := [ag], schedule := [.present 0] }
    let f : InFlight := ⟨1, ⟨5#32, 0#128, 0#64⟩⟩
    (s.schedule = .present 0 :: [] ∧ s.agents[0]? = some ag ∧ ag.waiting = none ∧
      ag.todo = .command ⟨5#32, 0#128, 0#64⟩ :: [] ∧ s.inProgress = none) ∧
    (({ s with inProgress := some f } : State).inProgress = some f ∧ f.agent ≠ 0) ∧
    ({ s with agents := [{ ag with waiting := some f.req }] } : State).agents[0]? =
      some { ag with waiting := some f.req } :=
  ⟨⟨rfl, rfl, rfl, rfl, rfl⟩, ⟨rfl, by decide⟩, rfl⟩

/-- A KEYINIT that completes on a core that is not keyed, and a reset of a keyed core. -/
theorem witness_WhoWritesKeyed :
    (∃ t, step (busy ⟨1#32, 0#128, 0#64⟩ (fresh 0#32 0#32)) = .next t ∧ t.KEYED = true) ∧
    (fresh 0#32 0#32).KEYED = false ∧ (keyed0 c1).KEYED = true ∧
    (∃ t, step { keyed0 c1 with schedule := [.reset] } = .next t ∧ (t.KEYED == false) = true) :=
  ⟨next_of (P := State.KEYED) (by decide +kernel), rfl, rfl, next_of (by decide +kernel)⟩

/-- The same two steps change the subkey table. -/
theorem witness_WhoWritesTheSubkeys :
    (∃ t, step (busy ⟨1#32, 0#128, 0#64⟩ (fresh 0#32 0#32)) = .next t ∧ (t.S != none) = true) ∧
    (∃ t, step { keyed0 c1 with schedule := [.reset] } = .next t ∧ (t.S == none) = true) ∧
    (fresh 0#32 0#32).S = none ∧ (keyed0 c1).S ≠ none :=
  ⟨next_of (by decide +kernel), next_of (by decide +kernel), rfl, by simp [State.S, keyed0]⟩

/-- A step of each of the four kinds that changes the chain vector. -/
theorem witness_WhoWritesTheChain :
    (∃ t, step (busy ⟨1#32, 0#128, 0#64⟩ (keyed0 c1)) = .next t ∧ (t.CK != some c1) = true) ∧
    (∃ t, step (busy ⟨2#32, 0#128, 0#64⟩ (keyed0 c1)) = .next t ∧ (t.CK != some c1) = true) ∧
    (∃ t, step (busy ⟨3#32, 0#128, 0#64⟩ (keyed0 c1)) = .next t ∧ (t.CK != some c1) = true) ∧
    (∃ t, step { keyed0 c1 with schedule := [.reset] } = .next t ∧ (t.CK != some c1) = true) ∧
    (keyed0 c1).CK = some c1 :=
  ⟨next_of (by decide +kernel), next_of (by decide +kernel), next_of (by decide +kernel), next_of (by decide +kernel), rfl⟩

/-- A keyed core with a request in progress, an agent that is held, and host memory: it meets the invariant, and its next step
answers a next state. -/
def contended : State :=
  { keyed0 c1 with
    inProgress := some ⟨0, ⟨0x00000002#32, 0#128, 0#64⟩⟩
    agents := [⟨[.stream ⟨.enc, 0, 0, 8⟩], none, []⟩,
      ⟨[.command ⟨5#32, 0#128, 0#64⟩], some ⟨5#32, 0#128, 0#64⟩, []⟩]
    mem := bytes (List.replicate 8 0x00#8) }

theorem contended_inv : Inv contended where
  memory := by decide +kernel
  subkeys := fun S h => ⟨0#128, (Option.some.inj h).symm⟩
  errorDout := fun r h => by cases h
  inProgress := fun f ag h h' => by
    cases h
    cases h'
    exact ⟨rfl, rfl, by decide, by decide +kernel⟩
  held := fun n ag r h h' => by
    rcases n with _ | _ | n
    · cases h
      cases h'
    · cases h
      cases h'
      rfl
    · cases h

theorem witness_StepKeepsInvariant : Inv contended ∧ ∃ t, step contended = .next t ∧
    (t.agents == [⟨[.stream ⟨.enc, 8, 8, 0⟩], none, []⟩,
      ⟨[.command ⟨5#32, 0#128, 0#64⟩], some ⟨5#32, 0#128, 0#64⟩, []⟩]) = true :=
  ⟨contended_inv, next_of (by decide +kernel)⟩

theorem witness_OnlyBadBuffersStop : Inv contended := contended_inv

theorem witness_AcceptedRequestCompletes : Inv contended ∧
    contended.inProgress = some ⟨0, ⟨0x00000002#32, 0#128, 0#64⟩⟩ ∧ contended.schedule = [] := ⟨contended_inv, rfl, rfl⟩

theorem witness_SoloAgentRunsTheSession :
    (∀ i ∈ [Instr.keyinit 0#128, .encblk ⟨0#32, 0#32⟩, .rdsk 31, .rdck], i.wellFormed = true) ∧
    (performAll [.keyinit 0#128, .encblk ⟨0#32, 0#32⟩, .rdsk 31, .rdck] (fresh 0#32 0#32)).any (fun x =>
      x.2 == [⟨.ok, 0#64⟩, okBlock c1, ⟨.errBadIndex, 0#64⟩, okBlock c1]) = true := by decide +kernel

/-- In place, apart from it on either side, and 7 trailing bytes, in both directions. -/
theorem witness_StreamOnKeyedCore :
    (keyed0 c1).life = .keyed (expand 0#128) c1 ∧
    (let m := bytes (List.replicate 30 0x00#8)
      ∀ c ∈ [StreamCall.mk .enc 0 0 15, ⟨.dec, 0, 15, 15⟩, ⟨.enc, 15, 0, 15⟩, ⟨.dec, 0, 0, 0⟩],
        buffersOk m c = true ∧ (c.out = c.inp ∨ c.out + c.len ≤ c.inp ∨ c.inp + c.len ≤ c.out)) :=
  ⟨rfl, by decide +kernel⟩

/-- A call over 7 bytes, and a call over none. -/
theorem witness_ShortStreamDoesNothing : ∀ len ∈ [0, 7],
    let c : StreamCall := ⟨.enc, 8, 0, len⟩
    let s := caller c [.present 0] (keyed0 c1)
    s.schedule = .present 0 :: [] ∧ s.agents[0]? = some ⟨[.stream c], none, []⟩ ∧ s.inProgress = none ∧
      buffersOk s.mem c = true ∧ c.len < 8 := by decide +kernel

theorem witness_StreamStopsOnError :
    let c : StreamCall := ⟨.dec, 8, 0, 8⟩
    let f : InFlight := ⟨0, ⟨c.cmd, 0#128, 0#64⟩⟩
    let s : State := { caller c [.complete] (fresh 0#32 0#32) with inProgress := some f }
    let k : State := { caller c [.complete] (keyed0 c1) with inProgress := some f }
    (s.schedule = .complete :: [] ∧ s.inProgress = some f ∧ s.agents[f.agent]? = some ⟨[.stream c], none, []⟩ ∧
      f.req = ⟨c.cmd, 0#128, 0#64⟩ ∧ s.KEYED = false) ∧
    (k.schedule = .complete :: [] ∧ k.inProgress = some f ∧ k.agents[f.agent]? = some ⟨[.stream c], none, []⟩ ∧
      k.KEYED = true ∧ ∃ u, runRequest f.req k = .next u ∧ u.KEYED = true) :=
  ⟨⟨rfl, rfl, rfl, rfl, rfl⟩, rfl, rfl, rfl, rfl, next_of (P := State.KEYED) (by decide +kernel)⟩

/-- Buffers one byte too long: of the input, and of the output. -/
theorem witness_BadBuffersAreRefused :
    (let c : StreamCall := ⟨.enc, 0, 8, 9⟩
      let s := caller c [.present 0] (keyed0 c1)
      s.schedule = .present 0 :: [] ∧ s.agents[0]? = some ⟨[.stream c], none, []⟩ ∧ s.inProgress = none ∧
        8 < c.len ∧ readByte s.mem (c.inp + 8) = none) ∧
    (let c : StreamCall := ⟨.enc, 8, 0, 9⟩
      let s := caller c [.present 0] (keyed0 c1)
      s.schedule = .present 0 :: [] ∧ s.agents[0]? = some ⟨[.stream c], none, []⟩ ∧ s.inProgress = none ∧
        8 < c.len ∧ readByte s.mem (c.out + 8) = none) := by decide +kernel

/-- One whole block, then 7 bytes, in place. -/
theorem witness_StreamsChainAcrossCalls : (caller ⟨.enc, 0, 0, 8⟩ [] (keyed0 c1)).KEYED = true ∧
    buffersOk (caller ⟨.enc, 0, 0, 8⟩ [] (keyed0 c1)).mem ⟨.enc, 0, 0, 8 * 1 + 7⟩ = true := ⟨rfl, by decide +kernel⟩

theorem witness_AssemblerLines : 31 < 32 := by decide

theorem witness_PseudoInstructions : 25 < 26 := by decide

end Sys2Proof.Tests
end

section
/-! The writers of the core's registers: what one step can do to `life`, said once in terms of the state before the step,
and the obligations about KEYED, S and CK that follow from it (spec/10_state.md R22, R27, R29). -/

namespace Sys2Proof.Machine

/-- The three views depend on `life` only. -/
theorem views_of_life_eq {s t : State} (h : t.life = s.life) : t.KEYED = s.KEYED ∧ t.S = s.S ∧ t.CK = s.CK := by
  simp [State.KEYED, State.S, State.CK, h]

/-- The chain vector holds a value in the keyed life cycle only (R21). -/
theorem CK_eq_some_iff {s : State} {ck : Block} : s.CK = some ck ↔ ∃ S, s.life = .keyed S ck := by
  cases h : s.life <;> simp [State.CK, h]

/-- What one step from `s` to `t` writes to the registers of the core, one constructor per writer (R22, R27, R29, R180). -/
inductive CoreWrite (s t : State) : Prop where
  /-- No register is written. -/
  | unchanged (life : t.life = s.life)
  /-- The reset input. -/
  | reset (rest : List Event) (event : s.schedule = .reset :: rest) (life : t.life = .uninitialized)
  /-- KEYINIT completes. -/
  | keyinit (f : InFlight) (key : Key) (running : s.inProgress = some f)
      (decoded : decode f.req = .command (.keyinit key))
      (life : t.life = .keyed (expand key) ⟨s.params.iv0, s.params.iv1⟩)
      (response : t.response = some ⟨.ok, 0#64⟩) (idle : t.inProgress = none)
  /-- ENCBLK completes with the ciphertext `c`. -/
  | encblk (f : InFlight) (S : SubkeyTable) (ck p c : Block) (running : s.inProgress = some f)
      (decoded : decode f.req = .command (.encblk p)) (before : s.life = .keyed S ck)
      (life : t.life = .keyed S c) (response : t.response = some ⟨.ok, packBlock c⟩)
  /-- DECBLK of `c` completes. -/
  | decblk (f : InFlight) (S : SubkeyTable) (ck c p : Block) (running : s.inProgress = some f)
      (decoded : decode f.req = .command (.decblk c)) (before : s.life = .keyed S ck)
      (life : t.life = .keyed S c) (response : t.response = some ⟨.ok, packBlock p⟩)

/-- Every step writes the core's registers as one of the writers does. -/
theorem step_coreWrite {s t : State} (h : step s = .next t) : CoreWrite s t := by
  obtain ⟨hl, -, -⟩ | ⟨rest, hs, rfl⟩ | ⟨f, u, s1, hl1, hp1, hf, hu, hl, -, hr, hi⟩ := step_core h
  · exact .unchanged hl
  · exact .reset rest hs rfl
  · rcases runRequest_cases f.req s1 with ⟨st, -, e⟩ | ⟨key, hd, e⟩ | ⟨S, ck, p, hd, hs, e⟩ | ⟨S, ck, c, hd, hs, e⟩ |
        ⟨S, ck, d, -, -, e⟩ <;>
      obtain rfl := Host.Outcome.next.inj (e.symm.trans hu)
    case inl => exact .unchanged (hl.trans hl1)
    case inr.inl => exact .keyinit f key hf hd (by simp [hl, hp1]) hr hi
    case inr.inr.inl => exact .encblk f S ck p _ hf hd (hl1 ▸ hs) hl hr
    case inr.inr.inr.inl => exact .decblk f S ck c _ hf hd (hl1 ▸ hs) hl hr
    case inr.inr.inr.inr => exact .unchanged (hl.trans hl1)

/-- No step changes the parameters (R12, R34). -/
theorem step_params {s t : State} (h : step s = .next t) : t.params = s.params := by
  obtain ⟨-, hp, -⟩ | ⟨rest, -, rfl⟩ | ⟨f, u, s1, -, hp1, -, hu, -, hp, -, -⟩ := step_core h
  · exact hp
  · rfl
  · exact hp.trans ((runRequest_frame hu).1.trans hp1)

/-- Settles O46, by the writers of the core: among them only KEYINIT takes a core to keyed that is not, and only reset
takes one back. -/
theorem whoWritesKeyed : Obligations.WhoWritesKeyed := by
  intro s t h
  cases step_coreWrite h with
  | unchanged life => simp +contextual [views_of_life_eq life]
  | reset rest event life => simp [uninitialized_of_life life, event]
  | keyinit f key running decoded life response idle =>
    exact ⟨fun _ _ => ⟨f, key, running, decoded, idle, response⟩, by simp [keyed_of_life life]⟩
  | encblk f S ck p c running decoded before life response => simp [keyed_of_life before, keyed_of_life life]
  | decblk f S ck c p running decoded before life response => simp [keyed_of_life before, keyed_of_life life]

/-- Settles O47, by the writers of the core: ENCBLK and DECBLK leave the table as they found it. -/
theorem whoWritesTheSubkeys : Obligations.WhoWritesTheSubkeys := by
  intro s t h hne
  cases step_coreWrite h with
  | unchanged life => exact absurd (views_of_life_eq life).2.1 hne
  | reset rest event life => exact .inr ⟨rest, event, (uninitialized_of_life life).2.1⟩
  | keyinit f key running decoded life response idle =>
    exact .inl ⟨f, key, running, decoded, (keyed_of_life life).2.1⟩
  | encblk f S ck p c running decoded before life response =>
    simp [keyed_of_life before, keyed_of_life life] at hne
  | decblk f S ck c p running decoded before life response =>
    simp [keyed_of_life before, keyed_of_life life] at hne

/-- Settles O48: each writer of the core is one of the statement's cases, and `step_params` is its last clause. -/
theorem whoWritesTheChain : Obligations.WhoWritesTheChain := by
  refine ⟨fun s t h hne => ?_, fun s t => step_params⟩
  cases step_coreWrite h with
  | unchanged life => exact absurd (views_of_life_eq life).2.2 hne
  | reset rest event life => exact .inr (.inr (.inr ⟨rest, event, (uninitialized_of_life life).2.2⟩))
  | keyinit f key running decoded life response idle =>
    exact .inl ⟨f, key, running, decoded, response, (keyed_of_life life).2.2⟩
  | encblk f S ck p c running decoded before life response =>
    exact .inr (.inl ⟨f, p, _, running, decoded, response, by simp [keyed_of_life life]⟩)
  | decblk f S ck c p running decoded before life response =>
    exact .inr (.inr (.inl ⟨f, c, _, running, decoded, response, (keyed_of_life life).2.2⟩))

end Sys2Proof.Machine
end

section
/-! The chain vector along a session of commands (spec/10_state.md R30). -/

namespace Sys2Proof.Safety

open Sys2Proof.Machine

/-- The chain vector that one command of a session leaves on a keyed core: the step of `chainAfter`. -/
def chainStep (iv ck : Block) (i : Instr) (r : Response) : Block :=
  match i with
  | .keyinit _ => iv
  | .encblk _ => unpackBlock r.dout
  | .decblk c => c
  | .rdsk _ => ck
  | .rdck => ck

theorem chainAfter_cons (iv ck : Block) (i : Instr) (is : List Instr) (r : Response) (rs : List Response) :
    chainAfter iv ck (i :: is) (r :: rs) = chainAfter iv (chainStep iv ck i r) is rs := by
  cases i <;> rfl

/-- A command of a session answers what `exec` does. -/
theorem exec_of_perform {i : Instr} {s t : State} {r : Response} (h : perform i s = some (t, r)) :
    exec i s = .next t ∧ t.response = some r := by
  unfold perform at h
  split at h
  · next u hu =>
    obtain ⟨r', hr, heq⟩ := Option.map_eq_some_iff.mp h
    obtain ⟨rfl, rfl⟩ := Prod.mk.inj heq
    exact ⟨hu, hr⟩
  · cases h
  · cases h

/-- A session of one more command is that command and then the others. -/
theorem performAll_cons {i : Instr} {is : List Instr} {s t : State} {rs : List Response}
    (h : performAll (i :: is) s = some (t, rs)) :
    ∃ u r rs', perform i s = some (u, r) ∧ performAll is u = some (t, rs') ∧ rs = r :: rs' := by
  unfold performAll at h
  split at h
  · cases h
  · next u r hu =>
    obtain ⟨⟨t', rs'⟩, hrest, heq⟩ := Option.map_eq_some_iff.mp h
    obtain ⟨rfl, rfl⟩ := Prod.mk.inj heq
    exact ⟨u, r, rs', hu, hrest, rfl⟩

/-- RDSK and RDCK write no register, whether they answer a value or an error. -/
theorem exec_readback_life {i : Instr} {s t : State} (hi : i = .rdck ∨ ∃ k, i = .rdsk k) (h : exec i s = .next t) :
    t.life = s.life := by
  rcases exec_cases i s with ⟨_, _, e⟩ | ⟨_, rfl, _⟩ | ⟨_, _, _, rfl, _⟩ | ⟨_, _, _, rfl, _⟩ | ⟨_, _, _, _, _, e⟩
  · cases e.symm.trans h; rfl
  · simp at hi
  · simp at hi
  · simp at hi
  · cases e.symm.trans h; rfl

/-- One command on a keyed core leaves the chain vector that `chainStep` computes from its response. -/
theorem perform_CK {i : Instr} {s t : State} {r : Response} {ck : Block} (hck : s.CK = some ck)
    (h : perform i s = some (t, r)) : t.CK = some (chainStep ⟨s.params.iv0, s.params.iv1⟩ ck i r) := by
  obtain ⟨S, hl⟩ := CK_eq_some_iff.mp hck
  have readback (hi : i = .rdck ∨ ∃ k, i = .rdsk k) : t.CK = some ck :=
    (views_of_life_eq (exec_readback_life hi (exec_of_perform h).1)).2.2.trans hck
  cases i with
  | keyinit key =>
    obtain rfl := Host.Outcome.next.inj (exec_of_perform h).1
    rfl
  | encblk p =>
    rw [perform_encblk hl] at h
    cases h
    simp [chainStep, okBlock]
  | decblk c =>
    rw [perform_decblk hl] at h
    cases h
    rfl
  | rdsk k => exact readback (.inr ⟨k, rfl⟩)
  | rdck => exact readback (.inl rfl)

/-- A session on a keyed core leaves the chain vector that `chainAfter` computes. -/
theorem performAll_CK {is : List Instr} {s t : State} {rs : List Response} {ck : Block} (hck : s.CK = some ck)
    (h : performAll is s = some (t, rs)) : t.CK = some (chainAfter ⟨s.params.iv0, s.params.iv1⟩ ck is rs) := by
  induction is generalizing s ck rs with
  | nil =>
    cases h
    exact hck
  | cons i is ih =>
    obtain ⟨u, r, rs', hu, hrest, rfl⟩ := performAll_cons h
    have hp : u.params = s.params := (exec_frame (exec_of_perform hu).1).1
    rw [chainAfter_cons, ← hp]
    exact ih (hp ▸ perform_CK hck hu) hrest

/-- Settles O39, by induction on the session (`performAll_CK`); KEYED is 1 because CK holds a value. -/
theorem chainVectorIsLastCiphertext : Obligations.ChainVectorIsLastCiphertext := by
  intro is s t ck rs hck h
  have hCK := performAll_CK hck h
  obtain ⟨S, hl⟩ := CK_eq_some_iff.mp hCK
  exact ⟨(keyed_of_life hl).1, hCK⟩

end Sys2Proof.Safety
end

section
/-! Key bytes, blocks and host bytes in the wide fields (spec/20_memory.md R41, R43, R44): a run of bits is put together from
its bytes. -/

namespace Sys2Proof.Machine

/-- Four bytes one above the other are the 32 bits they cover. -/
theorem append_bytes_eq_word {w : Nat} (x : BitVec w) (o : Nat) :
    x.extractLsb' (o + 24) 8 ++ x.extractLsb' (o + 16) 8 ++ x.extractLsb' (o + 8) 8 ++ x.extractLsb' o 8 =
      x.extractLsb' o 32 := by
  rw [BitVec.extractLsb'_append_extractLsb'_eq_extractLsb' (by omega),
    BitVec.extractLsb'_append_extractLsb'_eq_extractLsb' (by omega),
    BitVec.extractLsb'_append_extractLsb'_eq_extractLsb' (by omega)]

/-- Shifting bytes into place and joining them is appending them: each bit comes from the one byte that covers it. -/
theorem or_shifted_bytes_eq_append (b0 b1 b2 b3 : Byte) :
    b0.setWidth 32 ||| (b1.setWidth 32 <<< 8) ||| (b2.setWidth 32 <<< 16) ||| (b3.setWidth 32 <<< 24) =
      b3 ++ b2 ++ b1 ++ b0 := by
  apply BitVec.eq_of_getLsbD_eq
  intro n hn
  simp only [BitVec.getLsbD_or, BitVec.getLsbD_shiftLeft, BitVec.getLsbD_setWidth, BitVec.getLsbD_append]
  rcases (by omega : n < 8 ∨ 8 ≤ n ∧ n < 16 ∨ 16 ≤ n ∧ n < 24 ∨ 24 ≤ n) with h | h | h | h <;> grind

/-- A bit of a key byte is a bit of the key field (R41). -/
theorem keyByte_getLsbD (key : Key) (k n : Nat) (hn : n < 8) :
    (keyByte key k).getLsbD n = key.getLsbD (8 * k + n) := by
  simp [keyByte, hn]

/-- The four bytes of a key word are neighbours in the key field (R41). -/
theorem keyWord_eq_extractLsb' (key : Key) (j : Nat) : keyWord key j = key.extractLsb' (32 * j) 32 := by
  rw [keyWord, or_shifted_bytes_eq_append, ← append_bytes_eq_word]
  simp only [keyByte, Nat.mul_add, ← Nat.mul_assoc]

/-- The key scheduler's working words are the key words, in order (R41). -/
theorem keyWords_getElem (key : Key) (j : Fin 4) : (keyWords key)[j] = keyWord key j := by
  fin_cases j <;> rfl

/-- Settles O6: a key word is its bytes appended, and those are neighbours in the key field. -/
theorem keyWordsAreLittleEndian : Obligations.KeyWordsAreLittleEndian :=
  ⟨keyByte_getLsbD, fun key j _ => keyWord_eq_extractLsb' key j, keyWords_getElem⟩

/-- ENCBLK on a keyed core (R121). -/
theorem exec_encblk_keyed {s : State} {S : SubkeyTable} {CK : Block} (h : s.life = .keyed S CK) (p : Block) :
    exec (.encblk p) s =
      .next (respond .ok (packBlock (encodeBlock S (xorBlock p CK))) (writeChain S (encodeBlock S (xorBlock p CK)) s)) :=
  requireKeyed_keyed h _

/-- DECBLK on a keyed core (R123). -/
theorem exec_decblk_keyed {s : State} {S : SubkeyTable} {CK : Block} (h : s.life = .keyed S CK) (c : Block) :
    exec (.decblk c) s =
      .next (respond .ok (packBlock (xorBlock (decodeBlock S c) CK)) (writeChain S c s)) :=
  requireKeyed_keyed h _

/-- Settles O7: the packing and its inverse are laws of the operands, the decoder unpacks `din`, and on a keyed core the
response carries the packed result. -/
theorem blockFieldIsBThenA : Obligations.BlockFieldIsBThenA := by
  have encWord : 0x00000002#32 = cmdWord 2#4 0#5 := by decide
  have decWord : 0x00000003#32 = cmdWord 3#4 0#5 := by decide
  refine ⟨fun v => ⟨rfl, rfl⟩, fun x => rfl, unpackBlock_packBlock, packBlock_unpackBlock, ?_, ?_, ?_⟩
  · exact fun key din => encWord ▸ decode_encblk key din
  · exact fun key din => decWord ▸ decode_decblk key din
  · exact fun x s S CK h => ⟨⟨_, exec_encblk_keyed h x, rfl⟩, ⟨_, exec_decblk_keyed h x, rfl⟩⟩

end Sys2Proof.Machine
end

section
/-! Host memory byte by byte (spec/20_memory.md R40, R44). -/

namespace Sys2Proof.Machine

/-- Running a request neither reads nor writes host memory: with any other memory it does the same (R40). -/
theorem runRequest_withMem {r : Request} {s t : State} (h : runRequest r s = .next t) (m : List Host.Cell) :
    runRequest r { s with mem := m } = .next { t with mem := m } := by
  obtain ⟨hparams, hagents, hschedule, -, hidle⟩ := runRequest_frame h
  rw [runRequest_congr (a := s) { s with mem := m } rfl rfl h, ← hparams, ← hagents, ← hschedule, ← hidle]

/-- A buffer is host memory where each of its bytes has a value. -/
theorem isHostMemory_of_bytes {m : List Host.Cell} {addr n : Nat}
    (h : ∀ k, k < n → readByte m (addr + k) ≠ none) : isHostMemory m addr n = true := by
  simpa [isHostMemory, Option.isSome_iff_ne_none] using h

/-- Settles O8, from the laws of requests, reads and writes. -/
theorem hostMemoryIsLittleEndian : Obligations.HostMemoryIsLittleEndian := by
  refine ⟨fun r s t m h => ⟨?_, runRequest_withMem h m⟩, fun m addr n v => readByte_of_memRead, ?_, ?_, ?_⟩
  · obtain ⟨-, -, -, hmem, -⟩ := runRequest_frame h
    exact hmem
  · exact fun m addr n h => Option.isSome_iff_exists.mp ((memRead_isSome m addr n).trans (isHostMemory_of_bytes h))
  · exact fun m m' addr n v h => ⟨readByte_memWrite_stored h, fun a => readByte_memWrite_other h⟩
  · exact fun m addr n v h => Option.isSome_iff_exists.mp ((memWrite_isSome m addr n v).trans (isHostMemory_of_bytes h))

/-- Values of `n` bytes with the same bytes are equal: bit `i` is bit `i % 8` of byte `i / 8`. -/
theorem eq_of_bytes_eq {n : Nat} {u v : BitVec (8 * n)}
    (h : ∀ k, k < n → u.extractLsb' (8 * k) 8 = v.extractLsb' (8 * k) 8) : u = v := by
  apply BitVec.eq_of_getLsbD_eq
  intro i hi
  have hbit := congrArg (·.getLsbD (i % 8)) (h (i / 8) (by omega))
  simpa [BitVec.getLsbD_extractLsb', Nat.mod_lt, Nat.div_add_mod] using hbit

/-- What was written is read back. -/
theorem memRead_memWrite_same {n : Nat} {m m' : List Host.Cell} {addr : Nat} {v : BitVec (8 * n)}
    (h : memWrite m addr n v = some m') : memRead m' addr n = some v := by
  have hmem : isHostMemory m' addr n = true := by
    rw [isHostMemory_memWrite h, ← memWrite_isSome m addr n v, h, Option.isSome_some]
  obtain ⟨u, hu⟩ := Option.isSome_iff_exists.mp ((memRead_isSome m' addr n).trans hmem)
  have huv : u = v := eq_of_bytes_eq fun k hk =>
    Option.some.inj ((readByte_of_memRead hu k hk).symm.trans (readByte_memWrite_stored h k hk))
  rw [hu, huv]

/-- The words of a block that is read from host memory are made of its bytes, least significant byte first (R44). -/
theorem unpackBlock_eq_bytes (v : DWord) :
    unpackBlock v =
      ⟨v.extractLsb' 24 8 ++ v.extractLsb' 16 8 ++ v.extractLsb' 8 8 ++ v.extractLsb' 0 8,
        v.extractLsb' 56 8 ++ v.extractLsb' 48 8 ++ v.extractLsb' 40 8 ++ v.extractLsb' 32 8⟩ := by
  rw [append_bytes_eq_word v 0, append_bytes_eq_word v 32, unpackBlock]

/-- A stream call with a whole block left, its buffers host memory, offers its next block (R146). -/
theorem beginOp_stream_block {n : Nat} {ag : Agent} {c : StreamCall} {ops : List HostOp} {s : State} {din : DWord}
    (htodo : ag.todo = .stream c :: ops) (hbuf : buffersOk s.mem c = true) (hlen : 8 ≤ c.len)
    (hread : memRead s.mem c.inp 8 = some din) :
    beginOp n ag s = .next (offer n ag ⟨c.cmd, 0#128, din⟩ s) := by
  simp [beginOp, htodo, hbuf, Nat.not_lt.mpr hlen, hread]

/-- A stream call that is delivered OK writes the output block and advances (R146). -/
theorem deliver_stream_ok {n : Nat} {ag : Agent} {c : StreamCall} {ops : List HostOp} {s : State} {dout : DWord}
    {m : List Host.Cell} (hag : s.agents[n]? = some ag) (htodo : ag.todo = .stream c :: ops)
    (hwrite : memWrite s.mem c.out 8 dout = some m) :
    deliver n ⟨.ok, dout⟩ s = .next (setAgent n { ag with todo := .stream c.advance :: ops } { s with mem := m }) := by
  simp [deliver, hag, htodo, hwrite]

/-- Settles O9: the bytes of a read block are those of its words, a written block is read back, and the driver's turn and
its end are the rules above. -/
theorem streamBytesFormABlock : Obligations.StreamBytesFormABlock := by
  refine ⟨fun m addr v h => ?_, fun m m' addr x => memRead_memWrite_same,
    fun n ag c ops s din => beginOp_stream_block, fun n ag c ops s dout m => deliver_stream_ok, by decide⟩
  have byte := readByte_of_memRead (n := 8) h
  exact ⟨_, _, _, _, _, _, _, _, byte 0 (by decide), byte 1 (by decide), byte 2 (by decide), byte 3 (by decide),
    byte 4 (by decide), byte 5 (by decide), byte 6 (by decide), byte 7 (by decide), unpackBlock_eq_bytes v⟩

end Sys2Proof.Machine
end

section
/-! Repeating a command (spec/20_memory.md R49). -/

namespace Sys2Proof.Machine

/-- The answer of RDSK and RDCK depends on the core's registers only. -/
theorem exec_readback_answer {i : Instr} (hi : i = .rdck ∨ ∃ k, i = .rdsk k) (l : Lifecycle) :
    ∃ st d, ∀ s : State, s.life = l → exec i s = .next (respond st d s) := by
  cases l with
  | uninitialized =>
    refine ⟨.errNotKeyed, 0#64, fun s hl => ?_⟩
    obtain rfl | ⟨k, rfl⟩ := hi
    · exact requireKeyed_uninitialized hl _
    · exact requireKeyed_uninitialized hl _
  | keyed S CK =>
    obtain rfl | ⟨k, rfl⟩ := hi
    · exact ⟨.ok, packBlock CK, fun s hl => requireKeyed_keyed hl _⟩
    · rcases Nat.lt_or_ge k 26 with hk | hk
      · exact ⟨.ok, zext64 S[k], fun s hl => execRdsk_inRange hl hk⟩
      · exact ⟨.errBadIndex, 0#64, fun s hl => execRdsk_outOfRange hl hk⟩

/-- Repeating RDSK or RDCK leaves the same state with the same response. -/
theorem exec_readback_repeat {i : Instr} {s t u : State} (hi : i = .rdck ∨ ∃ k, i = .rdsk k)
    (ht : exec i s = .next t) (hu : exec i t = .next u) : u = t := by
  obtain ⟨st, d, answer⟩ := exec_readback_answer hi s.life
  obtain rfl := Host.Outcome.next.inj ((answer s rfl).symm.trans ht)
  exact (Host.Outcome.next.inj ((answer _ rfl).symm.trans hu)).symm

/-- Repeating KEYINIT with the same key leaves the same state. -/
theorem exec_keyinit_repeat {key : Key} {s t u : State} (ht : exec (.keyinit key) s = .next t)
    (hu : exec (.keyinit key) t = .next u) : u = t := by
  obtain rfl := Host.Outcome.next.inj ht
  exact (Host.Outcome.next.inj hu).symm

/-- A command that ends in an error writes no register of the core (R162). -/
theorem exec_error_life {i : Instr} {s t : State} {resp : Response} (h : exec i s = .next t)
    (hr : t.response = some resp) (herr : resp.status ≠ .ok) : t.life = s.life := by
  rcases exec_cases i s with ⟨st, -, e⟩ | ⟨_, _, e⟩ | ⟨_, _, _, _, _, e⟩ | ⟨_, _, _, _, _, e⟩ | ⟨_, _, _, _, _, e⟩ <;>
    obtain rfl := Host.Outcome.next.inj (e.symm.trans h)
  case inl => rfl
  all_goals
    obtain rfl := Option.some.inj hr
    exact absurd rfl herr

theorem packBlock_inj {x y : Block} : packBlock x = packBlock y ↔ x = y :=
  (Function.LeftInverse.injective unpackBlock_packBlock).eq_iff

theorem xorBlock_right_inj {x y z : Block} : xorBlock x y = xorBlock x z ↔ y = z := by
  obtain ⟨ya, yb⟩ := y
  obtain ⟨za, zb⟩ := z
  simp [xorBlock, xor32]

/-- Where the first ciphertext differs from the old chain vector, and from its own successor, repeating ENCBLK shows. -/
theorem exec_encblk_repeat_differs {s : State} {S : SubkeyTable} {CK p c : Block} (hs : s.life = .keyed S CK)
    (hc : encodeBlock S (xorBlock p CK) = c) (hchain : c ≠ CK) (hnext : encodeBlock S (xorBlock p c) ≠ c) :
    ∃ t u, exec (.encblk p) s = .next t ∧ exec (.encblk p) t = .next u ∧ s.KEYED = true ∧ t.CK ≠ s.CK ∧
      t.response ≠ u.response := by
  subst hc
  refine ⟨_, _, exec_encblk_keyed hs p, exec_encblk_keyed rfl p, (keyed_of_life hs).1, ?_, ?_⟩
  · simpa [keyed_of_life hs] using hchain
  · simpa [packBlock_inj] using hnext.symm

/-- Where the ciphertext differs from the old chain vector, repeating DECBLK shows: the second time it is combined with
itself. -/
theorem exec_decblk_repeat_differs {s : State} {S : SubkeyTable} {CK c : Block} (hs : s.life = .keyed S CK)
    (hchain : c ≠ CK) :
    ∃ t u, exec (.decblk c) s = .next t ∧ exec (.decblk c) t = .next u ∧ s.KEYED = true ∧ t.CK ≠ s.CK ∧
      t.response ≠ u.response := by
  refine ⟨_, _, exec_decblk_keyed hs c, exec_decblk_keyed rfl c, (keyed_of_life hs).1, ?_, ?_⟩
  · simpa [keyed_of_life hs] using hchain
  · simpa [packBlock_inj, xorBlock_right_inj] using hchain.symm

/-- A core with IV (0, 0) after KEYINIT with 16 zero bytes: line 1 of program L3-1 (spec/95_test_vectors.md). -/
def zeroKeyed : State :=
  { State.reset with params := ⟨0#32, 0#32⟩, life := .keyed (expand 0#128) ⟨0#32, 0#32⟩ }

/-- Settles O22. ENCBLK's state and block are those of program L3-1; DECBLK's block is any but the chain vector. -/
theorem whichCommandsAreIdempotent : Obligations.WhichCommandsAreIdempotent := by
  refine ⟨fun i s t u hi ht hu => ⟨Safety.exec_readback_life hi ht, exec_readback_repeat hi ht hu⟩, ?_, ?_,
    fun key s t u => exec_keyinit_repeat, fun i s t resp => exec_error_life⟩
  · have hc : encodeBlock (expand 0#128) ⟨0#32, 0#32⟩ = ⟨0xEEDBA521#32, 0x6D8F4B15#32⟩ := by decide +kernel
    have hnext : encodeBlock (expand 0#128) ⟨0xEEDBA521#32, 0x6D8F4B15#32⟩ = ⟨0xDA1DF638#32, 0x6147C106#32⟩ := by
      decide +kernel
    obtain ⟨t, u, h⟩ := exec_encblk_repeat_differs (s := zeroKeyed) (p := ⟨0#32, 0#32⟩) rfl hc (by decide)
      (hnext ▸ by decide)
    exact ⟨_, t, u, _, h⟩
  · obtain ⟨t, u, h⟩ := exec_decblk_repeat_differs (s := zeroKeyed) (c := ⟨1#32, 0#32⟩) rfl (by decide)
    exact ⟨_, t, u, _, h⟩

end Sys2Proof.Machine
end

section
/-! The table of legal command words against the decoder, and the words off the table (spec/30_encoding.md R59, R60, R63):
both sides are taken to the four fields of the word. -/

namespace Sys2Proof

/-- R59's rows select as the rule says. -/
theorem OpcodeRow.selects_iff (row : OpcodeRow) (w : Word) : row.selects w = true ↔ w &&& row.mask = row.pattern :=
  beq_iff_eq

/-- RDSK's mask leaves out the index field and nothing else, so its row selects the words of `rdsk`. -/
theorem and_rdskMask_eq_iff (w : Word) :
    w &&& 0xFFFFE0FF#32 = 0x00000004#32 ↔ w = cmdWord 4#4 (idxField w) := by
  have masked : rsv1Field (w &&& 0xFFFFE0FF#32) = rsv1Field w ∧ rsv0Field (w &&& 0xFFFFE0FF#32) = rsv0Field w ∧
      opField (w &&& 0xFFFFE0FF#32) = opField w := by
    simp only [rsv1Field, rsv0Field, opField, BitVec.extractLsb'_and]
    exact ⟨BitVec.and_allOnes, BitVec.and_allOnes, BitVec.and_allOnes⟩
  have ofIndex : ∀ idx : BitVec 5, cmdWord 4#4 idx &&& 0xFFFFE0FF#32 = 0x00000004#32 := by decide
  constructor
  · intro h
    obtain ⟨h1, h0, hop⟩ := masked
    rw [h] at h1 h0 hop
    have hw := cmd_eq_cmdWord h0.symm h1.symm
    rwa [← hop] at hw
  · intro h
    rw [h]
    exact ofIndex _

/-- The index of a word that decodes to RDSK is its field `IDX` (R62). -/
theorem rdsk_index_of_decode {r : Request} {k : Nat} (h : decode r = .command (.rdsk k)) :
    k = (idxField r.cmd).toNat := by
  rcases decode_command h with ⟨_, e⟩ | ⟨_, e⟩ | ⟨_, e⟩ | ⟨_, e⟩ | ⟨_, e⟩ <;> cases e
  rfl

/-- A word that decodes is selected by the row of its command (R59). -/
theorem row_of_decode {r : Request} {i : Instr} (h : decode r = .command i) :
    ∃ row ∈ opcodeRows, row.mnemonic = mnemonic i ∧ row.selects r.cmd = true := by
  rcases decode_command h with ⟨hw, rfl⟩ | ⟨hw, rfl⟩ | ⟨hw, rfl⟩ | ⟨hw, rfl⟩ | ⟨hw, rfl⟩
  · exact ⟨opcodeRows[0], List.getElem_mem _, rfl, by rw [hw]; rfl⟩
  · exact ⟨opcodeRows[1], List.getElem_mem _, rfl, by rw [hw]; rfl⟩
  · exact ⟨opcodeRows[2], List.getElem_mem _, rfl, by rw [hw]; rfl⟩
  · exact ⟨opcodeRows[3], List.getElem_mem _, rfl,
      (OpcodeRow.selects_iff _ _).mpr ((and_rdskMask_eq_iff _).mpr hw)⟩
  · exact ⟨opcodeRows[4], List.getElem_mem _, rfl, by rw [hw]; rfl⟩

/-- A word that a row selects decodes to that row's command (R59, R60). -/
theorem decode_of_row {r : Request} {row : OpcodeRow} (hrow : row ∈ opcodeRows) (hsel : row.selects r.cmd = true) :
    ∃ i, decode r = .command i ∧ mnemonic i = row.mnemonic := by
  obtain ⟨cmd, key, din⟩ := r
  rw [OpcodeRow.selects_iff] at hsel
  have whole {w : Word} (h : cmd &&& 0xFFFFFFFF#32 = w) : cmd = w := BitVec.and_allOnes.symm.trans h
  simp only [opcodeRows, List.mem_cons, List.not_mem_nil, or_false] at hrow
  rcases hrow with rfl | rfl | rfl | rfl | rfl
  · obtain rfl := whole hsel
    exact ⟨_, decode_keyinit key din, rfl⟩
  · obtain rfl := whole hsel
    exact ⟨_, decode_encblk key din, rfl⟩
  · obtain rfl := whole hsel
    exact ⟨_, decode_decblk key din, rfl⟩
  · rw [(and_rdskMask_eq_iff cmd).mp hsel]
    exact ⟨_, decode_rdsk (idxField cmd) key din, rfl⟩
  · obtain rfl := whole hsel
    exact ⟨_, decode_rdck key din, rfl⟩

/-- At most one row selects a word (R59): what it decodes to has one mnemonic, and that names the row. -/
theorem row_unique {w : Word} {row row' : OpcodeRow} (hrow : row ∈ opcodeRows) (hrow' : row' ∈ opcodeRows)
    (hsel : row.selects w = true) (hsel' : row'.selects w = true) : row = row' := by
  have named : ∀ a ∈ opcodeRows, ∀ b ∈ opcodeRows, a.mnemonic = b.mnemonic → a = b := by decide
  obtain ⟨i, hi, hm⟩ := decode_of_row (r := ⟨w, 0#128, 0#64⟩) hrow hsel
  obtain ⟨i', hi', hm'⟩ := decode_of_row (r := ⟨w, 0#128, 0#64⟩) hrow' hsel'
  obtain rfl := Decoded.command.inj (hi.symm.trans hi')
  exact named row hrow row' hrow' (hm.symm.trans hm')

/-- Settles O13: decoder and table agree in both directions (`row_of_decode`, `decode_of_row`). -/
theorem commandWordsAreTheTableRows : Obligations.CommandWordsAreTheTableRows :=
  ⟨rfl, OpcodeRow.selects_iff, fun _ _ => row_of_decode, fun _ _ => decode_of_row, fun _ _ _ => row_unique,
    fun _ _ => rdsk_index_of_decode⟩

/-- The decoder answers a command or says why not. -/
theorem illegal_iff_no_command (r : Request) : (∃ why, decode r = .illegal why) ↔ ¬ ∃ i, decode r = .command i := by
  cases decode r <;> simp

/-- The words that decode, by their fields (R57, R60): a known code, no reserved bit, and an index with RDSK only. -/
theorem command_iff_fields (r : Request) :
    (∃ i, decode r = .command i) ↔
      (opField r.cmd ≠ 0x0#4 ∧ opField r.cmd < 0x6#4) ∧ (rsv0Field r.cmd = 0#4 ∧ rsv1Field r.cmd = 0#19) ∧
        (idxField r.cmd = 0#5 ∨ opField r.cmd = 0x4#4) := by
  constructor
  · rintro ⟨i, h⟩
    rcases decode_command h with ⟨hw, -⟩ | ⟨hw, -⟩ | ⟨hw, -⟩ | ⟨hw, -⟩ | ⟨hw, -⟩ <;> rw [hw] <;> simp
  · obtain ⟨cmd, key, din⟩ := r
    dsimp only
    rintro ⟨⟨hop0, hop6⟩, ⟨h0, h1⟩, hidx⟩
    have codes : ∀ op : BitVec 4, op ≠ 0x0#4 → op < 0x6#4 →
        op = 4#4 ∨ op ≠ 4#4 ∧ (op = 1#4 ∨ op = 2#4 ∨ op = 3#4 ∨ op = 5#4) := by decide
    have hw := cmd_eq_cmdWord h0 h1
    rcases codes _ hop0 hop6 with hop | ⟨hne, hop⟩
    · rw [hw, hop]
      exact ⟨_, decode_rdsk _ key din⟩
    · rw [hw, hidx.resolve_right hne]
      rcases hop with hop | hop | hop | hop <;> rw [hop]
      · exact ⟨_, decode_keyinit key din⟩
      · exact ⟨_, decode_encblk key din⟩
      · exact ⟨_, decode_decblk key din⟩
      · exact ⟨_, decode_rdck key din⟩

/-- The illegal words are those off the table (R63). -/
theorem illegal_iff_no_row (r : Request) :
    (∃ why, decode r = .illegal why) ↔ ∀ row ∈ opcodeRows, row.selects r.cmd = false := by
  rw [illegal_iff_no_command]
  constructor
  · intro h row hrow
    rw [Bool.eq_false_iff]
    intro hsel
    obtain ⟨i, hi, -⟩ := decode_of_row hrow hsel
    exact h ⟨i, hi⟩
  · rintro h ⟨i, hi⟩
    obtain ⟨row, hrow, -, hsel⟩ := row_of_decode hi
    exact Bool.false_ne_true ((h row hrow).symm.trans hsel)

/-- The illegal words by their fields, in the three classes of R63. -/
theorem illegal_iff_fields (r : Request) :
    (∃ why, decode r = .illegal why) ↔
      (opField r.cmd = 0x0#4 ∨ 0x6#4 ≤ opField r.cmd) ∨ (rsv0Field r.cmd ≠ 0#4 ∨ rsv1Field r.cmd ≠ 0#19) ∨
        (idxField r.cmd ≠ 0#5 ∧ opField r.cmd ≠ 0x4#4) := by
  rw [illegal_iff_no_command, command_iff_fields, ← BitVec.not_lt]
  tauto

/-- Settles O14: off the table, by the fields, and the answer is `raiseError` (R164). -/
theorem illegalWordsAreRefused : Obligations.IllegalWordsAreRefused :=
  ⟨illegal_iff_no_row, illegal_iff_fields, fun _ _ s h => Machine.runRequest_illegal h s⟩

end Sys2Proof
end

section
/-! Responses and their status codes (spec/30_encoding.md R56, R68). -/

namespace Sys2Proof.Machine

theorem statusOfCode_statusCode (st : Status) : statusOfCode (statusCode st) = some st := by
  cases st <;> rfl

/-- The codes that name no status are the reserved ones (R68). -/
theorem statusOfCode_eq_none_iff (c : BitVec 4) : statusOfCode c = none ↔ 0x4#4 ≤ c := by
  revert c
  decide

/-- No status has a reserved code: what names it is found again. -/
theorem statusCode_lt (st : Status) : statusCode st < 0x4#4 := by
  rw [← BitVec.not_le, ← statusOfCode_eq_none_iff, statusOfCode_statusCode]
  exact Option.some_ne_none st

/-- Settles O16: a response carries a status, and no status has a reserved code. -/
theorem statusCodesAreAsListed : Obligations.StatusCodesAreAsListed :=
  ⟨rfl, rfl, rfl, rfl, statusOfCode_statusCode, statusOfCode_eq_none_iff, fun _ _ _ resp _ _ => statusCode_lt resp.status⟩

/-- Settles O24, by the law of `runRequest`. -/
theorem everyRequestIsAnswered : Obligations.EveryRequestIsAnswered :=
  runRequest_answers

end Sys2Proof.Machine
end

section
/-! The primitive word operations (spec/40_primitives.md R80 to R85). A rotation is read bit by bit, by `rotl_getLsbD`
and `rotr_getLsbD`; what it takes from its amount is the amount's value mod 32. -/

namespace Sys2Proof.Machine

theorem add32_comm (x y : Word) : add32 x y = add32 y x :=
  BitVec.add_comm x y

theorem add32_assoc (x y z : Word) : add32 (add32 x y) z = add32 x (add32 y z) :=
  BitVec.add_assoc x y z

/-- Settles O1. -/
theorem add32IsModularAddition : Obligations.Add32IsModularAddition :=
  ⟨BitVec.toNat_add, add32_comm, add32_assoc, by decide, by decide, by decide⟩

/-- SUB32 takes the remainder in the integers, so it is not negative (R81). -/
theorem sub32_toNat_cast (x y : Word) :
    ((sub32 x y).toNat : Int) = ((x.toNat : Int) - (y.toNat : Int)) % 2 ^ 32 := by
  have hx := x.isLt
  have hy := y.isLt
  rw [sub32, BitVec.toNat_sub]
  omega

theorem sub32_add32 (x y : Word) : sub32 (add32 x y) y = x :=
  BitVec.add_sub_cancel x y

/-- Settles O2. -/
theorem sub32UndoesAdd32 : Obligations.Sub32UndoesAdd32 :=
  ⟨sub32_toNat_cast, sub32_add32, BitVec.sub_self, by decide, by decide⟩

theorem xor32_xor32 (x y : Word) : xor32 (xor32 x y) y = x := by
  simp only [xor32, BitVec.xor_assoc, BitVec.xor_self, BitVec.xor_zero]

/-- Settles O3. -/
theorem xor32IsBitwise : Obligations.Xor32IsBitwise :=
  ⟨fun _ _ _ => BitVec.getLsbD_xor, fun _ => BitVec.xor_self, fun _ => BitVec.xor_zero, xor32_xor32, by decide⟩

/-- ROTL32 as R83 writes it, with `s = n[4:0]`. -/
theorem rotl_eq_ite (x n : Word) : rotl x n = if n.extractLsb' 0 5 = 0#5 then x else
    (x <<< (n.extractLsb' 0 5).toNat) ||| (x >>> (32 - (n.extractLsb' 0 5).toNat)) := by
  simp only [rotl, ← amount_toNat, BitVec.toNat_eq, BitVec.toNat_zero]

/-- ROTR32 as R84 writes it, with `s = n[4:0]`. -/
theorem rotr_eq_ite (x n : Word) : rotr x n = if n.extractLsb' 0 5 = 0#5 then x else
    (x >>> (n.extractLsb' 0 5).toNat) ||| (x <<< (32 - (n.extractLsb' 0 5).toNat)) := by
  simp only [rotr, ← amount_toNat, BitVec.toNat_eq, BitVec.toNat_zero]

/-- Bits `31:5` of the amount are ignored. -/
theorem rotl_congr_mod (x : Word) {n n' : Word} (h : n.toNat % 32 = n'.toNat % 32) : rotl x n = rotl x n' := by
  simp only [rotl, h]

/-- Two amounts that add up to a multiple of 32 rotate to the same word in the two directions. -/
theorem rotl_eq_rotr (x : Word) {n n' : Word} (h : (n.toNat + n'.toNat) % 32 = 0) : rotl x n = rotr x n' := by
  refine BitVec.eq_of_getLsbD_eq fun m hm => ?_
  rw [rotl_getLsbD x n m hm, rotr_getLsbD x n' m hm]
  congr 1
  omega

/-- A word whose bits are all the same rotates to itself. -/
theorem rotl_of_uniform {x : Word} {b : Bool} (hx : ∀ m < 32, x.getLsbD m = b) (n : Word) : rotl x n = x := by
  refine BitVec.eq_of_getLsbD_eq fun m hm => ?_
  rw [rotl_getLsbD x n m hm, hx _ (Nat.mod_lt _ (by decide)), hx m hm]

theorem rotr_of_uniform {x : Word} {b : Bool} (hx : ∀ m < 32, x.getLsbD m = b) (n : Word) : rotr x n = x := by
  have hneg : ((-n).toNat + n.toNat) % 32 = 0 := by
    rw [BitVec.toNat_neg]
    omega
  rw [← rotl_eq_rotr x hneg, rotl_of_uniform hx]

theorem getLsbD_ones : ∀ m < 32, (0xFFFFFFFF#32).getLsbD m = true := by decide

/-- Bit `m` of the word goes to bit `m + s` and back, mod 32. -/
theorem rotr_rotl (x n : Word) : rotr (rotl x n) n = x := by
  refine BitVec.eq_of_getLsbD_eq fun m hm => ?_
  have back : ((m + n.toNat % 32) % 32 + 32 - n.toNat % 32) % 32 = m := by omega
  rw [rotr_getLsbD _ n m hm, rotl_getLsbD x n _ (Nat.mod_lt _ (by decide)), back]

/-- R85: the carry that ADD32 discards is a multiple of 32, so it does not change the amount. -/
theorem rotl_add32 (x a b : Word) : rotl x (add32 a b) = rotl x (BitVec.ofNat 32 ((a.toNat + b.toNat) % 32)) := by
  apply rotl_congr_mod
  rw [add32, BitVec.toNat_add, BitVec.toNat_ofNat]
  omega

theorem rotl_low_bits (x n : Word) : rotl x n = rotl x ((n.extractLsb' 0 5).setWidth 32) := by
  apply rotl_congr_mod
  rw [BitVec.toNat_setWidth, amount_toNat]
  omega

/-- Settles O4: bit by bit; the amount counts mod 32, also when it is a 32-bit sum. -/
theorem rotlMovesBitsLeft : Obligations.RotlMovesBitsLeft := by
  refine ⟨fun x n m hm => ?bit, fun x n h0 => ?zero, fun x n n' h => ?low, fun x n h0 => ?shifts,
    fun x => rotl_eq_rotr x (by decide), rotl_of_uniform (fun _ _ => BitVec.getLsbD_zero), rotl_of_uniform getLsbD_ones,
    by decide, by decide, rotl_add32, fun a b => rotl_low_bits (xor32 a b) b⟩
  case bit => rw [amount_toNat, rotl_getLsbD x n m hm]
  case zero => rw [rotl_eq_ite, if_pos h0]
  case low => rw [rotl_eq_ite, rotl_eq_ite, h]
  case shifts => rw [rotl_eq_ite, if_neg h0]

/-- Settles O5: bit by bit, and each bit goes back to where ROTL32 took it from. -/
theorem rotrUndoesRotl : Obligations.RotrUndoesRotl := by
  refine ⟨fun x n m hm => ?bit, fun x n h0 => ?zero, fun x n n' h => ?low, fun x n h0 => ?shifts,
    fun x => (rotl_eq_rotr x (by decide)).symm, rotr_of_uniform (fun _ _ => BitVec.getLsbD_zero),
    rotr_of_uniform getLsbD_ones, rotr_rotl, by decide, by decide⟩
  case bit => rw [amount_toNat, rotr_getLsbD x n m hm]
  case zero => rw [rotr_eq_ite, if_pos h0]
  case low => rw [rotr_eq_ite, rotr_eq_ite, h]
  case shifts => rw [rotr_eq_ite, if_neg h0]

end Sys2Proof.Machine
end

section
/-! The illegal neighbours of a command word (spec/30_encoding.md R60, R63). -/

namespace Sys2Proof

/-- A code whose command takes no index decodes in one word only, the one with every other bit 0 (R60). -/
theorem cmd_eq_of_decode {r : Request} {i : Instr} (h : decode r = .command i) (hop : opField r.cmd ≠ 4#4) :
    r.cmd = cmdWord (opField r.cmd) 0#5 := by
  obtain ⟨-, ⟨h0, h1⟩, hidx⟩ := (command_iff_fields r).mp ⟨i, h⟩
  have hw := cmd_eq_cmdWord h0 h1
  rwa [hidx.resolve_right hop] at hw

/-- With a code whose command takes no index, any other bit set makes the word illegal, and the answer changes nothing
(R63, R162). -/
theorem runRequest_other_bit_set {r : Request} {op : BitVec 4} (hop : opField r.cmd = op) (hrdsk : op ≠ 4#4)
    (hne : r.cmd ≠ cmdWord op 0#5) (s : Machine.State) :
    Machine.runRequest r s = .next (Machine.raiseError .errIllegalCmd s) := by
  subst hop
  cases hd : decode r with
  | command i => exact absurd (cmd_eq_of_decode hd hrdsk) hne
  | illegal why => exact Machine.runRequest_illegal hd s

end Sys2Proof
end

section
/-! The key schedule and KEYINIT (spec/41_key_schedule.md R91, R92, R93, R96). -/

namespace Sys2Proof.Machine

/-- The word of KEYINIT (R58, R59). -/
theorem keyinitWord_eq : 0x00000001#32 = cmdWord 1#4 0#5 := by decide

/-- What KEYINIT answers, in every state (R96). -/
theorem exec_keyinit (key : Key) (s : State) :
    exec (.keyinit key) s = .next (respond .ok 0#64 (installKey (expand key) s)) := rfl

/-- Settles O17: KEYINIT's answer is `exec_keyinit`, and its word is the only one with its code that decodes. The
example values are computed from the zero key. -/
theorem keyinitInstallsKey : Obligations.KeyinitInstallsKey := by
  have example_values : (expand 0#128)[0] = 0x9BBBD8C8#32 ∧ (expand 0#128)[25] = 0x65046380#32 := by decide +kernel
  refine ⟨fun key din => ?_, exec_keyinit, fun r s hop hne => ?_, example_values⟩
  · rw [keyinitWord_eq, decode_keyinit]
  · exact runRequest_other_bit_set hop (by decide) (keyinitWord_eq ▸ hne) s

/-- An entry of the table before mixing. -/
theorem magicTable_getElem (i : Nat) (hi : i < 26) : magicTable[i] = magicWord i := by
  simp [magicTable]

/-- The table before mixing in closed form (R92). -/
theorem magicTable_toNat (i : Nat) (hi : i < 26) :
    magicTable[i].toNat = (0xB7E15163 + i * 0x9E3779B9) % 2 ^ 32 := by
  rw [magicTable_getElem, magicWord_toNat]

/-- Settles O31: the listed values are its values at 0, 1, 2 and 25. -/
theorem magicTableClosedForm : Obligations.MagicTableClosedForm :=
  ⟨fun i => magicTable_toNat i i.isLt, BitVec.eq_of_toNat_eq (magicTable_toNat 0 (by decide)),
    BitVec.eq_of_toNat_eq (magicTable_toNat 1 (by decide)), BitVec.eq_of_toNat_eq (magicTable_toNat 2 (by decide)),
    BitVec.eq_of_toNat_eq (magicTable_toNat 25 (by decide))⟩

/-- Step 3 of R91. -/
theorem magicTable_succ (i : Nat) (hi : i + 1 < 26) : magicTable[i + 1] = magicTable[i] + 0x9E3779B9#32 := by
  rw [magicTable_getElem, magicTable_getElem, magicWord]
  rfl

/-- One mixing iteration, from the two words that it computes (R91 step 5, R93). -/
theorem mixStep_eq (m : Mixing) {a b : Word} (ha : a = rotl (m.S[m.i] + m.a + m.b) 3#32)
    (hb : b = rotl (m.L[m.j] + a + m.b) (a + m.b)) :
    mixStep m = ⟨m.S.set m.i a, m.L.set m.j b, a, b, m.i + 1, m.j + 1⟩ := by
  subst ha hb
  rfl

/-- Settles O33: `expand` runs 78 iterations from `mixStart`, and `mixStep_eq` is one of them. -/
theorem expandIsSeventyEightIterations : Obligations.ExpandIsSeventyEightIterations :=
  ⟨fun _ => rfl, magicTable_getElem 0 (by decide), magicTable_succ,
    fun key j => (keyWords_getElem key j).trans (keyWord_eq_extractLsb' key j), fun _ => rfl, mixTimes_succ,
    fun m _ _ => mixStep_eq m⟩

/-- The order of R93: each of the two new words is made from the words of the storage that are current at that point. -/
theorem mixStep_order (m : Mixing) :
    (mixStep m).a = rotl (m.S[m.i] + m.a + m.b) 3#32 ∧ (mixStep m).S = m.S.set m.i (mixStep m).a ∧
      (mixStep m).b = rotl (m.L[m.j] + (mixStep m).a + m.b) ((mixStep m).a + m.b) ∧
      (mixStep m).L = m.L.set m.j (mixStep m).b := by
  simp only [mixStep_eq m rfl rfl, and_self]

/-- Each iteration advances both indices, and they wrap at the ends of the two tables (R91, R93). -/
theorem mixTimes_indices (n : Nat) (m : Mixing) :
    (mixTimes n m).i.val = (m.i.val + n) % 26 ∧ (mixTimes n m).j.val = (m.j.val + n) % 4 := by
  induction n with
  | zero => exact ⟨(Nat.mod_eq_of_lt m.i.isLt).symm, (Nat.mod_eq_of_lt m.j.isLt).symm⟩
  | succ n ih =>
    obtain ⟨hi, hj⟩ := ih
    rw [mixTimes_succ, mixStep_eq _ rfl rfl]
    simp only [Fin.val_add, hi, hj]
    omega

/-- How often a residue occurs among the numbers below `b`. -/
theorem length_filter_range_mod {r v : Nat} (b : Nat) (hv : v < r) :
    ((List.range b).filter fun n => n % r == v).length = b / r + if v < b % r then 1 else 0 := by
  have count := Nat.count_modEq_card b (Nat.zero_lt_of_lt hv) v
  simpa only [Nat.count, Nat.ModEq, Nat.mod_eq_of_lt hv, List.countP_eq_length_filter, beq_eq_decide] using count

/-- Settles O32: the indices count the iterations (`mixTimes_indices`), and 78 is 3 · 26 and 19 · 4 + 2. -/
theorem mixingOrderAndIndices : Obligations.MixingOrderAndIndices := by
  refine ⟨mixStep_order, fun key n => ?indices, fun i => ?subkeys, fun j => ?keyWords⟩
  case indices => simpa [mixStart] using mixTimes_indices n (mixStart key)
  case subkeys => exact length_filter_range_mod 78 i.isLt
  case keyWords =>
    rw [length_filter_range_mod 78 j.isLt]
    split <;> rfl

end Sys2Proof.Machine
end

section
/-! The inverse law of the block functions (spec/42_block_cipher.md R110): each step of Decode undoes the step of Encode with
the same subkeys and the other way round, so the two sequences of rounds do, by induction over the list of rounds. -/

namespace Sys2Proof.Machine

theorem add32_sub32 (x y : Word) : add32 (sub32 x y) y = x :=
  BitVec.sub_add_cancel x y

/-- Each rotation is the other one by the negated amount, so this is `rotr_rotl` at the amount `-n`. -/
theorem rotl_rotr (x n : Word) : rotl (rotr x n) n = x := by
  have hneg : ((-n).toNat + n.toNat) % 32 = 0 := by
    rw [BitVec.toNat_neg]
    omega
  have hneg' : (n.toNat + (-n).toNat) % 32 = 0 := by rwa [Nat.add_comm]
  rw [rotl_eq_rotr _ hneg', ← rotl_eq_rotr x hneg, rotr_rotl]

theorem unwhiten_whiten (S : SubkeyTable) (x : Block) : unwhiten S (whiten S x) = x := by
  simp only [unwhiten, whiten, sub32_add32]

theorem whiten_unwhiten (S : SubkeyTable) (y : Block) : whiten S (unwhiten S y) = y := by
  simp only [unwhiten, whiten, add32_sub32]

/-- Decode's round recovers first the old B, with the new A as amount and mask, then the old A with the recovered B. -/
theorem decodeRound_encodeRound (S : SubkeyTable) (r : Fin 12) (x : Block) :
    decodeRound S r (encodeRound S r x) = x := by
  simp only [decodeRound, encodeRound, sub32_add32, rotr_rotl, xor32_xor32]

theorem encodeRound_decodeRound (S : SubkeyTable) (r : Fin 12) (y : Block) :
    encodeRound S r (decodeRound S r y) = y := by
  simp only [decodeRound, encodeRound, xor32_xor32, rotl_rotr, add32_sub32]

theorem decodeRounds_append (S : SubkeyTable) (rs rs' : List (Fin 12)) (y : Block) :
    decodeRounds S (rs ++ rs') y = decodeRounds S rs' (decodeRounds S rs y) := by
  induction rs generalizing y with
  | nil => rfl
  | cons r rs ih => exact ih (decodeRound S r y)

/-- The last round in reverse order is the first in the order of Encode. -/
theorem decodeRounds_reverse_cons (S : SubkeyTable) (r : Fin 12) (rs : List (Fin 12)) (y : Block) :
    decodeRounds S (r :: rs).reverse y = decodeRound S r (decodeRounds S rs.reverse y) := by
  rw [List.reverse_cons, decodeRounds_append, decodeRounds, decodeRounds]

theorem decodeRounds_encodeRounds (S : SubkeyTable) (rs : List (Fin 12)) (x : Block) :
    decodeRounds S rs.reverse (encodeRounds S rs x) = x := by
  induction rs generalizing x with
  | nil => rfl
  | cons r rs ih => rw [decodeRounds_reverse_cons, encodeRounds, ih, decodeRound_encodeRound]

theorem encodeRounds_decodeRounds (S : SubkeyTable) (rs : List (Fin 12)) (y : Block) :
    encodeRounds S rs (decodeRounds S rs.reverse y) = y := by
  induction rs with
  | nil => rfl
  | cons r rs ih => rw [decodeRounds_reverse_cons, encodeRounds, encodeRound_decodeRound, ih]

theorem decodeBlock_encodeBlock (S : SubkeyTable) (x : Block) : decodeBlock S (encodeBlock S x) = x := by
  rw [decodeBlock, encodeBlock, decodeRounds_encodeRounds, unwhiten_whiten]

theorem encodeBlock_decodeBlock (S : SubkeyTable) (y : Block) : encodeBlock S (decodeBlock S y) = y := by
  rw [decodeBlock, encodeBlock, whiten_unwhiten, encodeRounds_decodeRounds]

/-- Settles O34: Decode is a left and a right inverse of Encode. -/
theorem decodeInvertsEncode : Obligations.DecodeInvertsEncode :=
  ⟨decodeBlock_encodeBlock, encodeBlock_decodeBlock, fun S =>
    Function.bijective_iff_has_inverse.mpr ⟨decodeBlock S, decodeBlock_encodeBlock S, encodeBlock_decodeBlock S⟩⟩

/-- The last row of the worked trace (R107). -/
theorem encodeBlock_zero_key : encodeBlock (expand 0#128) ⟨0#32, 0#32⟩ = ⟨0xEEDBA521#32, 0x6D8F4B15#32⟩ := by
  decide +kernel

/-- Settles O35: Decode of the worked ciphertext follows from the last row of the trace by the inverse law. -/
theorem workedBlockValues : Obligations.WorkedBlockValues :=
  ⟨by decide +kernel, by decide +kernel, by decide +kernel, encodeBlock_zero_key,
    encodeBlock_zero_key ▸ decodeBlock_encodeBlock _ _, by decide +kernel⟩

end Sys2Proof.Machine
end

section
/-! ENCBLK and DECBLK, one command at a time: the word, the answer on a keyed core, and the errors
(spec/43_cbc_chain.md R121, R123, R124). -/

namespace Sys2Proof.Machine

/-- The word of ENCBLK (R58, R59). -/
theorem encblkWord_eq : 0x00000002#32 = cmdWord 2#4 0#5 := by decide

/-- The word of DECBLK (R58, R59). -/
theorem decblkWord_eq : 0x00000003#32 = cmdWord 3#4 0#5 := by decide

/-- Settles O18: the answer is `exec_encblk_keyed`, the guard answers while not keyed, and ENCBLK's word is the only one
with its code that decodes. The example is the worked block of R107. -/
theorem encblkChainsAndEncodes : Obligations.EncblkChainsAndEncodes := by
  refine ⟨fun key din => ?_, fun p s S CK h => exec_encblk_keyed h p,
    fun p s h => requireKeyed_uninitialized h _, fun r s hop hne => ?_, fun s h => ?_⟩
  · rw [encblkWord_eq]
    exact decode_encblk key din
  · exact runRequest_other_bit_set hop (by decide) (encblkWord_eq ▸ hne) s
  · have zeroSum : xorBlock ⟨0#32, 0#32⟩ ⟨0#32, 0#32⟩ = ⟨0#32, 0#32⟩ := by decide
    rw [exec_encblk_keyed h, zeroSum, encodeBlock_zero_key]
    rfl

/-- Settles O19: the answer is `exec_decblk_keyed`, the guard answers while not keyed, and DECBLK's word is the only one
with its code that decodes. The example undoes the worked block of R107. -/
theorem decblkDecodesAndCaptures : Obligations.DecblkDecodesAndCaptures := by
  refine ⟨fun key din => ?_, fun c s S CK h => exec_decblk_keyed h c,
    fun c s h => requireKeyed_uninitialized h _, fun r s hop hne => ?_, fun s h => ?_⟩
  · rw [decblkWord_eq]
    exact decode_decblk key din
  · exact runRequest_other_bit_set hop (by decide) (decblkWord_eq ▸ hne) s
  · have zeroSum : packBlock (xorBlock ⟨0#32, 0#32⟩ ⟨0#32, 0#32⟩) = 0#64 := by decide
    rw [exec_decblk_keyed h, ← encodeBlock_zero_key, decodeBlock_encodeBlock, zeroSum]
    rfl

end Sys2Proof.Machine
end

section
/-! Sessions of block commands (spec/43_cbc_chain.md R125). The two directions differ only in what a block command answers
and in what it leaves in the chain vector, so the recurrence is proved once, for either direction. -/

namespace Sys2Proof.Safety

open Sys2Proof.Machine

/-- The block command of a direction: ENCBLK or DECBLK. -/
def blockCommand : Direction → Block → Instr
  | .enc => .encblk
  | .dec => .decblk

/-- The block that the block command answers to `x` on the chain vector `ck` (R121, R123). -/
def blockAnswer (S : SubkeyTable) (ck x : Block) : Direction → Block
  | .enc => encodeBlock S (xorBlock x ck)
  | .dec => xorBlock (decodeBlock S x) ck

/-- The ciphertext that the block command leaves in the chain vector: its answer or its input (R121, R124). -/
def blockCiphertext (S : SubkeyTable) (ck x : Block) : Direction → Block
  | .enc => blockAnswer S ck x .enc
  | .dec => x

/-- The CBC recurrence of a direction (R125). -/
def cbc : Direction → SubkeyTable → Block → List Block → List Block
  | .enc => cbcEncrypt
  | .dec => cbcDecrypt

theorem cbc_nil (d : Direction) (S : SubkeyTable) (ck : Block) : cbc d S ck [] = [] := by
  cases d <;> rfl

theorem cbc_cons (d : Direction) (S : SubkeyTable) (ck x : Block) (xs : List Block) :
    cbc d S ck (x :: xs) = blockAnswer S ck x d :: cbc d S (blockCiphertext S ck x d) xs := by
  cases d <;> rfl

/-- A block command on a keyed core answers OK and leaves the ciphertext beside the same table. -/
theorem perform_blockCommand {s : State} {S : SubkeyTable} {ck : Block} (h : s.life = .keyed S ck) (d : Direction)
    (x : Block) :
    ∃ t, perform (blockCommand d x) s = some (t, okBlock (blockAnswer S ck x d)) ∧
      t.life = .keyed S (blockCiphertext S ck x d) := by
  cases d with
  | enc => exact ⟨_, perform_encblk h x, rfl⟩
  | dec => exact ⟨_, perform_decblk h x, rfl⟩

theorem blockOf_of_blockCommand {r : Request} {d : Direction} {x : Block}
    (h : decode r = .command (blockCommand d x)) : blockOf r = some x := by
  cases d <;> simp [blockOf, h, blockCommand]

/-- KEYINIT in a session (R96). -/
theorem perform_keyinit (key : Key) (s : State) :
    perform (.keyinit key) s = some (respond .ok 0#64 (installKey (expand key) s), ⟨.ok, 0#64⟩) := rfl

/-- A command, and a session from the state it leaves, make a session. -/
theorem performAll_cons_of_perform {i : Instr} {is : List Instr} {s t u : State} {r : Response} {rs : List Response}
    (hi : perform i s = some (t, r)) (his : performAll is t = some (u, rs)) :
    performAll (i :: is) s = some (u, r :: rs) := by
  simp [performAll, hi, his]

/-- A request, and a session from the state it leaves, make a session. -/
theorem issueAll_cons_of_issue {r : Request} {rs : List Request} {s t u : State} {resp : Response}
    {resps : List Response} (hr : issue r s = some (t, resp)) (hrs : issueAll rs t = some (u, resps)) :
    issueAll (r :: rs) s = some (u, resp :: resps) := by
  simp [issueAll, hr, hrs]

theorem blockResponses_cons (r : Request) (rs : List Request) (resp : Response) (resps : List Response) :
    blockResponses (r :: rs) (resp :: resps) =
      ((blockOf r).map fun _ => resp).toList ++ blockResponses rs resps := by
  cases h : blockOf r <;> simp [blockResponses, h]

/-- On a keyed core, the block commands of one direction answer the recurrence from the chain vector. -/
theorem performAll_cbc {s : State} {S : SubkeyTable} {ck : Block} (h : s.life = .keyed S ck) (d : Direction)
    (xs : List Block) :
    ∃ t, performAll (xs.map (blockCommand d)) s = some (t, (cbc d S ck xs).map okBlock) := by
  induction xs generalizing s ck with
  | nil => exact ⟨s, by rw [cbc_nil]; rfl⟩
  | cons x xs ih =>
    obtain ⟨t, hx, ht⟩ := perform_blockCommand h d x
    obtain ⟨u, hxs⟩ := ih ht
    rw [cbc_cons]
    exact ⟨u, performAll_cons_of_perform hx hxs⟩

/-- The same with requests that leave the chain before, between and after the block commands. -/
theorem issueAll_cbc {s : State} {S : SubkeyTable} {ck : Block} (h : s.life = .keyed S ck) (d : Direction)
    {rs : List Request}
    (hrs : ∀ r ∈ rs, leavesChain r = true ∨ ∃ x, decode r = .command (blockCommand d x)) :
    ∃ t resps, issueAll rs s = some (t, resps) ∧ resps.length = rs.length ∧
      blockResponses rs resps = (cbc d S ck (rs.filterMap blockOf)).map okBlock := by
  induction rs generalizing s ck with
  | nil => exact ⟨s, [], rfl, rfl, by rw [List.filterMap_nil, cbc_nil]; rfl⟩
  | cons r rs ih =>
    obtain ⟨hr, hrest⟩ := List.forall_mem_cons.mp hrs
    rcases hr with hleaves | ⟨x, hdec⟩
    · obtain ⟨t, resp, hissue, hlife, -⟩ := issue_of_leavesChain hleaves s
      obtain ⟨u, resps, hall, hlen, hblocks⟩ := ih (hlife.trans h) hrest
      refine ⟨u, resp :: resps, issueAll_cons_of_issue hissue hall, congrArg Nat.succ hlen, ?_⟩
      have hnone := blockOf_of_leavesChain hleaves
      simp [blockResponses_cons, hnone, hblocks]
    · obtain ⟨t, hperform, hlife⟩ := perform_blockCommand h d x
      obtain ⟨u, resps, hall, hlen, hblocks⟩ := ih hlife hrest
      refine ⟨u, _, issueAll_cons_of_issue ((issue_command hdec s).trans hperform) hall, congrArg Nat.succ hlen, ?_⟩
      have hsome := blockOf_of_blockCommand hdec
      simp [blockResponses_cons, hsome, hblocks, cbc_cons]

/-- After KEYINIT the recurrence starts from the IV. -/
theorem performAll_keyinit_cbc (d : Direction) (key : Key) (s : State) (xs : List Block) :
    ∃ t, performAll (.keyinit key :: xs.map (blockCommand d)) s =
      some (t, ⟨.ok, 0#64⟩ :: (cbc d (expand key) ⟨s.params.iv0, s.params.iv1⟩ xs).map okBlock) := by
  obtain ⟨t, hxs⟩ := performAll_cbc (s := respond .ok 0#64 (installKey (expand key) s)) rfl d xs
  exact ⟨t, performAll_cons_of_perform (perform_keyinit key s) hxs⟩

/-- After KEYINIT the recurrence starts from the IV, also among requests that leave the chain. -/
theorem issueAll_keyinit_cbc (d : Direction) {key : Key} {k : Request} {rs : List Request} (s : State)
    (hk : decode k = .command (.keyinit key))
    (hrs : ∀ r ∈ rs, leavesChain r = true ∨ ∃ x, decode r = .command (blockCommand d x)) :
    ∃ t resps, issueAll (k :: rs) s = some (t, ⟨.ok, 0#64⟩ :: resps) ∧ resps.length = rs.length ∧
      blockResponses rs resps =
        (cbc d (expand key) ⟨s.params.iv0, s.params.iv1⟩ (rs.filterMap blockOf)).map okBlock := by
  obtain ⟨t, resps, hall, hrest⟩ := issueAll_cbc (s := respond .ok 0#64 (installKey (expand key) s)) rfl d hrs
  exact ⟨t, resps, issueAll_cons_of_issue ((issue_command hk s).trans (perform_keyinit key s)) hall, hrest⟩

/-- Settles O36: each clause is the recurrence after KEYINIT, of commands or of requests, in one of the two directions. -/
theorem cbcRecurrence : Obligations.CbcRecurrence := fun key s xs =>
  ⟨performAll_keyinit_cbc .enc key s xs, performAll_keyinit_cbc .dec key s xs,
    fun _ _ => issueAll_keyinit_cbc .enc s, fun _ _ => issueAll_keyinit_cbc .dec s⟩

end Sys2Proof.Safety
end

section
/-! The recurrences against each other, and an error in a ciphertext block (spec/43_cbc_chain.md R126, R128). -/

namespace Sys2Proof.Safety

open Sys2Proof.Machine

theorem xorBlock_xorBlock_cancel (x y : Block) : xorBlock (xorBlock x y) y = x := by
  simp [xorBlock, xor32_xor32]

theorem xorBlock_assoc (x y z : Block) : xorBlock (xorBlock x y) z = xorBlock x (xorBlock y z) := by
  simp [xorBlock, xor32, BitVec.xor_assoc]

theorem okBlock_injective : Function.Injective okBlock := fun _ _ h =>
  packBlock_inj.mp (congrArg Response.dout h)

/-- Decryption undoes encryption from the same chain vector: both chains run over the same ciphertexts. -/
theorem cbcDecrypt_cbcEncrypt (S : SubkeyTable) (ck : Block) (ps : List Block) :
    cbcDecrypt S ck (cbcEncrypt S ck ps) = ps := by
  induction ps generalizing ck with
  | nil => rfl
  | cons p ps ih => rw [cbcEncrypt, cbcDecrypt, ih, decodeBlock_encodeBlock, xorBlock_xorBlock_cancel]

/-- Decryption of a later part goes on from the last ciphertext of the earlier one. -/
theorem cbcDecrypt_append (S : SubkeyTable) (ck : Block) (xs ys : List Block) :
    cbcDecrypt S ck (xs ++ ys) = cbcDecrypt S ck xs ++ cbcDecrypt S (lastBlock ck xs) ys := by
  induction xs generalizing ck with
  | nil => rfl
  | cons x xs ih => rw [List.cons_append, cbcDecrypt, ih, cbcDecrypt, lastBlock, List.cons_append]

theorem length_cbcDecrypt (S : SubkeyTable) (ck : Block) (xs : List Block) :
    (cbcDecrypt S ck xs).length = xs.length := by
  induction xs generalizing ck with
  | nil => rfl
  | cons x xs ih => exact congrArg Nat.succ (ih x)

/-- Without a new KEYINIT, DECBLK combines the decoded block with the ciphertext that ENCBLK left in the chain vector. -/
theorem performAll_keyinit_encblk_decblk {key : Key} {s : State} {p c : Block}
    (hc : encodeBlock (expand key) (xorBlock p ⟨s.params.iv0, s.params.iv1⟩) = c) :
    ∃ t, performAll [.keyinit key, .encblk p, .decblk c] s =
      some (t, [⟨.ok, 0#64⟩, okBlock c, okBlock (xorBlock (decodeBlock (expand key) c) c)]) := by
  subst hc
  exact ⟨_, performAll_cons_of_perform (perform_keyinit key s) (performAll_cons_of_perform (perform_encblk rfl p)
    (performAll_cons_of_perform (perform_decblk rfl _) rfl))⟩

/-- Settles O37. The ENCBLK session answers the recurrence, which `cbcDecrypt_cbcEncrypt` undoes from the same IV. Without
the new KEYINIT, the zero block of program L3-1 comes back as its own ciphertext. -/
theorem cbcRoundTrip : Obligations.CbcRoundTrip := by
  constructor
  · intro key s t u ps cs hparams hsession
    obtain ⟨t₁, henc⟩ := performAll_keyinit_cbc .enc key s ps
    obtain ⟨-, hresps⟩ := Prod.mk.inj (Option.some.inj (hsession.symm.trans henc))
    have hcs : cs = cbcEncrypt (expand key) ⟨u.params.iv0, u.params.iv1⟩ ps :=
      hparams ▸ okBlock_injective.list_map (List.cons.inj hresps).2
    obtain ⟨t', hdec⟩ := performAll_keyinit_cbc .dec key u cs
    have hps : cbc .dec (expand key) ⟨u.params.iv0, u.params.iv1⟩ cs = ps := by
      rw [hcs]
      exact cbcDecrypt_cbcEncrypt _ _ ps
    exact ⟨t', hps ▸ hdec⟩
  · have hplain : xorBlock ⟨0#32, 0#32⟩ ⟨0#32, 0#32⟩ = ⟨0#32, 0#32⟩ := by decide
    have hcipher : decodeBlock (expand 0#128) ⟨0xEEDBA521#32, 0x6D8F4B15#32⟩ = ⟨0#32, 0#32⟩ :=
      encodeBlock_zero_key ▸ decodeBlock_encodeBlock _ _
    obtain ⟨t, ht⟩ := performAll_keyinit_encblk_decblk (key := 0#128) (s := zeroKeyed) (p := ⟨0#32, 0#32⟩)
      ((congrArg _ hplain).trans encodeBlock_zero_key)
    exact ⟨0#128, zeroKeyed, t, ⟨0#32, 0#32⟩, _, _, ht, by rw [hcipher]; decide⟩

/-- Settles O38: both sessions answer the recurrence. The blocks before `x` do not see the error, `y` meets it as the chain
vector, and after `y` the chain is the same again. -/
theorem errorPropagation : Obligations.ErrorPropagation := by
  intro s S ck pre post x y e h
  have plaintexts (z : Block) : cbc .dec S ck (pre ++ z :: y :: post) = cbcDecrypt S ck pre ++
      xorBlock (decodeBlock S z) (lastBlock ck pre) :: xorBlock (decodeBlock S y) z :: cbcDecrypt S y post :=
    cbcDecrypt_append S ck pre _
  obtain ⟨t, ht⟩ := performAll_cbc h .dec (pre ++ x :: y :: post)
  obtain ⟨t', ht'⟩ := performAll_cbc h .dec (pre ++ xorBlock x e :: y :: post)
  rw [plaintexts] at ht
  rw [plaintexts, ← xorBlock_assoc] at ht'
  exact ⟨t, t', _, _, _, _, _, ht, ht', length_cbcDecrypt S ck pre, rfl⟩

end Sys2Proof.Safety
end

section
/-! The read-back commands: the word, the answer in both states, and the errors (spec/44_readback.md R135, R136, R137). -/

namespace Sys2Proof

/-- Every word that RDSK's row selects decodes to RDSK with the word's index (R59, R62). -/
theorem decode_rdsk_word {w : Word} (h : w &&& 0xFFFFE0FF#32 = 0x00000004#32) (key : Key) (din : DWord) :
    decode ⟨w, key, din⟩ = .command (.rdsk (idxField w).toNat) := by
  have hd := decode_rdsk (idxField w) key din
  rwa [← (and_rdskMask_eq_iff w).mp h] at hd

/-- A reserved bit makes any word illegal, and the answer changes nothing (R63, R162). -/
theorem runRequest_reserved_bit_set {r : Request} (h : rsv0Field r.cmd ≠ 0#4 ∨ rsv1Field r.cmd ≠ 0#19)
    (s : Machine.State) : Machine.runRequest r s = .next (Machine.raiseError .errIllegalCmd s) := by
  obtain ⟨why, hd⟩ := (illegal_iff_fields r).mpr (.inr (.inl h))
  exact Machine.runRequest_illegal hd s

end Sys2Proof

namespace Sys2Proof.Machine

/-- The zero extension of RDSK's result written as a field (R14, R46). -/
theorem zext64_eq_append (w : Word) : zext64 w = 0#32 ++ w :=
  BitVec.setWidth_eq_append (by decide)

/-- RDSK on a keyed core, for an index in range (R135). -/
theorem exec_rdsk_keyed {s : State} {S : SubkeyTable} {CK : Block} (h : s.life = .keyed S CK) {k : Nat} (hk : k < 26) :
    exec (.rdsk k) s = .next (respond .ok (0#32 ++ S[k]) s) :=
  zext64_eq_append S[k] ▸ execRdsk_inRange h hk

/-- Settles O20: RDSK's words are those its row selects, the answers are those of the KEYED guard and of the index check,
and a reserved bit makes the word illegal. The example reads the last subkey of the zero key. -/
theorem rdskReadsOneSubkey : Obligations.RdskReadsOneSubkey := by
  refine ⟨fun w key din h => decode_rdsk_word h key din, fun k hk s S CK h => exec_rdsk_keyed h hk,
    fun k s S CK hk h => execRdsk_outOfRange h hk, fun k s h => requireKeyed_uninitialized h _,
    fun r s _ hrsv => runRequest_reserved_bit_set hrsv s, fun s CK key din h => ?_⟩
  obtain ⟨-, -, -, -, subkey25⟩ := keyinitInstallsKey
  have hd : decode ⟨0x00001904#32, key, din⟩ = .command (.rdsk 25) := decode_rdsk_word (by decide) key din
  rw [runRequest_command hd, exec_rdsk_keyed h (by decide), subkey25]
  rfl

/-- The word of RDCK (R58, R59). -/
theorem rdckWord_eq : 0x00000005#32 = cmdWord 5#4 0#5 := by decide

/-- RDCK on a keyed core (R137). -/
theorem exec_rdck_keyed {s : State} {S : SubkeyTable} {CK : Block} (h : s.life = .keyed S CK) :
    exec .rdck s = .next (respond .ok (packBlock CK) s) :=
  requireKeyed_keyed h _

/-- Directly after KEYINIT, RDCK returns the IV (R137). -/
theorem exec_rdck_after_keyinit {key : Key} {s t : State} (h : exec (.keyinit key) s = .next t) :
    exec .rdck t = .next (respond .ok (packBlock ⟨s.params.iv0, s.params.iv1⟩) t) := by
  obtain rfl := Host.Outcome.next.inj ((exec_keyinit key s).symm.trans h)
  exact exec_rdck_keyed rfl

/-- After ENCBLK, RDCK returns the same response again, so it leaves the same state (R137). -/
theorem exec_rdck_after_encblk {p : Block} {s t : State} (hs : s.KEYED = true) (h : exec (.encblk p) s = .next t) :
    exec .rdck t = .next t := by
  obtain ⟨S, CK, hl⟩ := (keyed_iff_values s).mp hs
  obtain rfl := Host.Outcome.next.inj ((exec_encblk_keyed hl p).symm.trans h)
  exact exec_rdck_keyed rfl

/-- After DECBLK, RDCK returns the input ciphertext and changes nothing else (R137). -/
theorem exec_rdck_after_decblk {c : Block} {s t : State} (hs : s.KEYED = true) (h : exec (.decblk c) s = .next t) :
    exec .rdck t = .next { t with response := some ⟨.ok, packBlock c⟩ } := by
  obtain ⟨S, CK, hl⟩ := (keyed_iff_values s).mp hs
  obtain rfl := Host.Outcome.next.inj ((exec_decblk_keyed hl c).symm.trans h)
  exact exec_rdck_keyed rfl

/-- With IV (0, 0), RDCK after KEYINIT and ENCBLK with zero key and block returns the worked ciphertext
(R107, R137). -/
theorem exec_rdck_zero_session {s t u v : State} (hiv : s.params = ⟨0#32, 0#32⟩)
    (ht : exec (.keyinit 0#128) s = .next t) (hu : exec (.encblk ⟨0#32, 0#32⟩) t = .next u)
    (hv : exec .rdck u = .next v) : v.response = some ⟨.ok, 0x6D8F4B15EEDBA521#64⟩ := by
  obtain rfl := Host.Outcome.next.inj ((exec_keyinit 0#128 s).symm.trans ht)
  obtain ⟨-, -, -, -, encblk_example⟩ := encblkChainsAndEncodes
  have hkeyed := encblk_example (respond .ok 0#64 (installKey (expand 0#128) s)) (by simp [hiv])
  obtain rfl := Host.Outcome.next.inj (hkeyed.symm.trans hu)
  obtain rfl := Host.Outcome.next.inj ((exec_rdck_keyed rfl).symm.trans hv)
  rfl

/-- Settles O21: the answer is `exec_rdck_keyed`, the guard answers while not keyed, and RDCK's word is the only one with
its code that decodes. After KEYINIT, ENCBLK and DECBLK the answer follows from the chain vector each leaves. -/
theorem rdckReadsTheChain : Obligations.RdckReadsTheChain := by
  refine ⟨fun key din => ?_, fun s S CK h => exec_rdck_keyed h, fun s h => requireKeyed_uninitialized h _,
    fun r s hop hne => ?_, fun key s t => exec_rdck_after_keyinit, fun p s t => exec_rdck_after_encblk,
    fun c s t => exec_rdck_after_decblk, fun s t u v => exec_rdck_zero_session⟩
  · rw [rdckWord_eq]
    exact decode_rdck key din
  · exact runRequest_other_bit_set hop (by decide) (rdckWord_eq ▸ hne) s

end Sys2Proof.Machine
end

section
/-! A stream call too short for a block: the turn of an agent that presents its next operation (spec/45_stream_host.md R150). -/

namespace Sys2Proof.Machine

/-- An agent waits for no response when no request in progress is its own (R145). -/
theorem awaitsResponse_eq_false {n : Nat} {s : State} (h : ∀ f, s.inProgress = some f → f.agent ≠ n) :
    awaitsResponse n s = false := by
  cases hf : s.inProgress with
  | none => exact awaitsResponse_none hf
  | some f => simpa [awaitsResponse_some hf] using h f hf

/-- An agent that is neither held nor waiting for a response begins its next operation when it presents (R145, R190). -/
theorem present_eq_beginOp {n : Nat} {s : State} {ag : Agent} (hag : s.agents[n]? = some ag)
    (hfree : awaitsResponse n s = false) (hwaiting : ag.waiting = none) : present n s = beginOp n ag s := by
  simp [present, hag, hfree, hwaiting]

/-- A stream call with no whole block left, its buffers host memory, ends with OK (R149, R150). -/
theorem beginOp_stream_short {n : Nat} {ag : Agent} {c : StreamCall} {ops : List HostOp} {s : State}
    (htodo : ag.todo = .stream c :: ops) (hbuf : buffersOk s.mem c = true) (hlen : c.len < 8) :
    beginOp n ag s = .next (setAgent n { ag with todo := ops, received := ag.received ++ [.returned .ok] } s) := by
  simp [beginOp, htodo, hbuf, hlen]

/-- Settles O55: the step is the agent's turn, which begins the call, and a call that short ends at once. -/
theorem shortStreamDoesNothing : Obligations.ShortStreamDoesNothing := by
  intro s n rest ag c ops hschedule hag hwaiting htodo hother hbuf hlen
  have hfree : awaitsResponse n { s with schedule := rest } = false := awaitsResponse_eq_false hother
  calc step s = present n { s with schedule := rest } := step_present hschedule
    _ = beginOp n ag { s with schedule := rest } := present_eq_beginOp hag hfree hwaiting
    _ = _ := beginOp_stream_short htodo hbuf hlen

end Sys2Proof.Machine
end

section
/-! Errors: their causes (spec/60_exceptions.md R163 to R166), the state an error leaves (R162), and the request after one
(R167). -/

namespace Sys2Proof.Machine

theorem KEYED_eq_false_iff (s : State) : s.KEYED = false ↔ s.life = .uninitialized := by
  cases h : s.life <;> simp [State.KEYED, h]

/-- While KEYED is 0, every command other than KEYINIT is answered by the KEYED guard (R163). -/
theorem exec_notKeyed {i : Instr} {s : State} (hs : s.KEYED = false) (hi : ∀ key, i ≠ .keyinit key) :
    exec i s = .next (raiseError .errNotKeyed s) := by
  have hl := (KEYED_eq_false_iff s).mp hs
  cases i with
  | keyinit key => exact absurd rfl (hi key)
  | encblk p => exact requireKeyed_uninitialized hl _
  | decblk c => exact requireKeyed_uninitialized hl _
  | rdsk k => exact requireKeyed_uninitialized hl _
  | rdck => exact requireKeyed_uninitialized hl _

/-- The index of a word that decodes to RDSK is at most 31: its field has 5 bits (R57, R62). -/
theorem rdsk_index_le_of_decode {r : Request} {k : Nat} (h : decode r = .command (.rdsk k)) : k ≤ 31 := by
  rw [rdsk_index_of_decode h]
  exact Nat.le_of_lt_succ (idxField r.cmd).isLt

/-- Why the request `r` is answered with an error in the state `s`: the causes of R163 to R165. Each holds only where the
checks that R166 puts before it have passed, so no two hold together (`status_of_cause`). -/
inductive ErrorCause (r : Request) (s : State) : Status → Prop where
  | illegal {why : Illegal} (decoded : decode r = .illegal why) : ErrorCause r s .errIllegalCmd
  | notKeyed {i : Instr} (decoded : decode r = .command i) (other : ∀ key, i ≠ .keyinit key)
      (before : s.KEYED = false) : ErrorCause r s .errNotKeyed
  | badIndex {k : Nat} (decoded : decode r = .command (.rdsk k)) (index : 26 ≤ k) (after : s.KEYED = true) :
      ErrorCause r s .errBadIndex

/-- Each cause raises its error, and does nothing else. -/
theorem runRequest_of_cause {r : Request} {s : State} {st : Status} (h : ErrorCause r s st) :
    runRequest r s = .next (raiseError st s) := by
  cases h with
  | illegal hd => exact runRequest_illegal hd s
  | notKeyed hd hi hs => exact (runRequest_command hd s).trans (exec_notKeyed hs hi)
  | badIndex hd hk hs =>
    obtain ⟨S, CK, hl⟩ := (keyed_iff_values s).mp hs
    exact (runRequest_command hd s).trans (execRdsk_outOfRange hl hk)

/-- A request that no cause stops is answered OK. -/
theorem errorCause_or_ok (r : Request) (s : State) :
    (∃ st, ErrorCause r s st) ∨ ∃ t d, runRequest r s = .next t ∧ t.response = some ⟨.ok, d⟩ := by
  cases hd : decode r with
  | illegal why => exact .inl ⟨_, .illegal hd⟩
  | command i =>
    rw [runRequest_command hd]
    cases hs : s.KEYED with
    | false =>
      cases i with
      | keyinit key => exact .inr ⟨_, _, exec_keyinit key s, rfl⟩
      | _ => exact .inl ⟨_, .notKeyed hd (by simp) hs⟩
    | true =>
      obtain ⟨S, CK, hl⟩ := (keyed_iff_values s).mp hs
      cases i with
      | keyinit key => exact .inr ⟨_, _, exec_keyinit key s, rfl⟩
      | encblk p => exact .inr ⟨_, _, exec_encblk_keyed hl p, rfl⟩
      | decblk c => exact .inr ⟨_, _, exec_decblk_keyed hl c, rfl⟩
      | rdsk k =>
        rcases Nat.lt_or_ge k 26 with hk | hk
        · exact .inr ⟨_, _, exec_rdsk_keyed hl hk, rfl⟩
        · exact .inl ⟨_, .badIndex hd hk hs⟩
      | rdck => exact .inr ⟨_, _, exec_rdck_keyed hl, rfl⟩

/-- An answer other than OK has its cause, and raising that error is all that happened (R162). -/
theorem runRequest_error {r : Request} {s t : State} {resp : Response} (h : runRequest r s = .next t)
    (hr : t.response = some resp) (herr : resp.status ≠ .ok) :
    ErrorCause r s resp.status ∧ resp.dout = 0#64 ∧ t = raiseError resp.status s := by
  rcases errorCause_or_ok r s with ⟨st, cause⟩ | ⟨u, d, hu, hok⟩
  · obtain rfl := Host.Outcome.next.inj ((runRequest_of_cause cause).symm.trans h)
    obtain rfl := Option.some.inj hr
    exact ⟨cause, rfl, rfl⟩
  · obtain rfl := Host.Outcome.next.inj (hu.symm.trans h)
    obtain rfl := Option.some.inj (hok.symm.trans hr)
    exact absurd rfl herr

/-- The cause fixes the status of the answer. -/
theorem status_of_cause {r : Request} {s t : State} {resp : Response} {st : Status} (h : runRequest r s = .next t)
    (hr : t.response = some resp) (cause : ErrorCause r s st) : resp.status = st := by
  obtain rfl := Host.Outcome.next.inj ((runRequest_of_cause cause).symm.trans h)
  obtain rfl := Option.some.inj hr
  rfl

/-- Settles O25: the error is all that happened (`runRequest_error`), and raising it writes no register. -/
theorem errorsChangeNothing : Obligations.ErrorsChangeNothing := by
  intro r s t resp h hr herr
  obtain ⟨-, hdout, rfl⟩ := runRequest_error h hr herr
  exact ⟨hdout, rfl, raiseError_KEYED _ s, raiseError_S _ s, raiseError_CK _ s⟩

/-- Settles O26: the KEYED guard answers, and the answer has no other cause. -/
theorem notKeyedError : Obligations.NotKeyedError := by
  refine ⟨fun i s => exec_notKeyed, fun r s t dout h hr => ?_, rfl⟩
  obtain ⟨⟨⟩, hdout, -⟩ := runRequest_error h hr nofun
  next i hd hi hs => exact ⟨hdout, hs, i, hd, hi⟩

/-- Settles O27: the words off the table are those the decoder calls illegal (`illegal_iff_no_row`), and the answer has no
other cause. -/
theorem illegalCommandError : Obligations.IllegalCommandError := by
  refine ⟨fun r s hrow => ?_, fun r s t dout h hr => ?_, rfl⟩
  · obtain ⟨why, hd⟩ := (illegal_iff_no_row r).mpr hrow
    exact runRequest_illegal hd s
  · obtain ⟨⟨⟩, hdout, -⟩ := runRequest_error h hr nofun
    next why hd => exact ⟨hdout, (illegal_iff_no_row r).mp ⟨why, hd⟩⟩

/-- Settles O28: the index check answers, the answer has no other cause, and the index field has 5 bits. -/
theorem badIndexError : Obligations.BadIndexError := by
  refine ⟨fun r k s hd hk hs => runRequest_of_cause (.badIndex hd hk hs), fun r s t dout h hr => ?_, rfl⟩
  obtain ⟨⟨⟩, hdout, -⟩ := runRequest_error h hr nofun
  next k hd hk hs => exact ⟨hdout, hs, k, hd, hk, rdsk_index_le_of_decode hd⟩

/-- Where every check passes, no cause is left (R166). -/
theorem not_errorCause_of_checks_pass {r : Request} {s : State} {i : Instr} (hd : decode r = .command i)
    (hs : s.KEYED = true ∨ ∃ key, i = .keyinit key) (hk : ∀ k, i = .rdsk k → k < 26) (st : Status) :
    ¬ ErrorCause r s st := by
  rintro (hd' | ⟨hd', hi, hs'⟩ | ⟨hd', hk', -⟩) <;> cases hd.symm.trans hd'
  · obtain hs | ⟨key, rfl⟩ := hs
    · exact Bool.false_ne_true (hs'.symm.trans hs)
    · exact hi key rfl
  · exact Nat.not_le_of_lt (hk _ rfl) hk'

/-- The second example of R166: the index of `0x00000102` is not 0, and its command takes none. -/
theorem decode_encblk_with_index (key : Key) (din : DWord) : ∃ why, decode ⟨0x00000102#32, key, din⟩ = .illegal why := by
  have fields : idxField 0x00000102#32 ≠ 0#5 ∧ opField 0x00000102#32 ≠ 0x4#4 := by decide
  exact (illegal_iff_fields _).mpr (.inr (.inr fields))

/-- Settles O29: the first three clauses are the causes, in the fourth none is left, and the examples are those of R166. -/
theorem errorPriority : Obligations.ErrorPriority := by
  refine ⟨fun r s t resp h hr => ⟨?_, ?_, ?_, ?_⟩, fun s hs => exec_notKeyed hs nofun, fun s key din => ?_⟩
  · rintro ⟨why, hd⟩
    exact status_of_cause h hr (.illegal hd)
  · intro i hd hs hi
    exact status_of_cause h hr (.notKeyed hd hi hs)
  · intro k hd hs hk
    exact status_of_cause h hr (.badIndex hd hk hs)
  · intro i hd hs hk
    by_contra herr
    exact not_errorCause_of_checks_pass hd hs hk _ (runRequest_error h hr herr).1
  · obtain ⟨why, hd⟩ := decode_encblk_with_index key din
    exact runRequest_illegal hd s

/-- Raising an error writes the port only, which a request does not read and writes again. -/
theorem runRequest_raiseError (r : Request) (st : Status) (s : State) :
    runRequest r (raiseError st s) = runRequest r s := by
  obtain ⟨u, resp, hu, -, -⟩ := runRequest_answers r s
  obtain ⟨hparams, hagents, hschedule, hmem, hidle⟩ := runRequest_frame hu
  rw [runRequest_congr (raiseError st s) rfl rfl hu, hu, raiseError, respond, ← hparams, ← hagents, ← hschedule, ← hmem,
    ← hidle]

/-- Settles O30: an error leaves the state of `raiseError`, from which every request runs as from the state before. -/
theorem errorsAreNotSticky : Obligations.ErrorsAreNotSticky := by
  intro r r' s t resp h hr herr
  obtain ⟨-, -, rfl⟩ := runRequest_error h hr herr
  exact runRequest_raiseError r' resp.status s

end Sys2Proof.Machine
end

section
/-! The state after reset (spec/70_reset_and_hazards.md R180): its registers follow from its life cycle, in the model's
first state and after the reset input alike. -/

namespace Sys2Proof.Machine

@[simp] theorem reset_life : State.reset.life = .uninitialized := rfl

@[simp] theorem reset_inProgress : State.reset.inProgress = none := rfl

/-- Settles O40: an uninitialized core has KEYED 0 and no value in S and CK (`uninitialized_of_life`), and both states are
uninitialized; the rest is what reset writes and what it keeps. -/
theorem resetState : Obligations.ResetState := by
  obtain ⟨hkeyed, hS, hCK⟩ := uninitialized_of_life reset_life
  refine ⟨hkeyed, hS, hCK, reset_inProgress, fun s => ?_⟩
  obtain ⟨hkeyed', hS', hCK'⟩ := uninitialized_of_life (resetCore_life s)
  exact ⟨hkeyed', hS', hCK', resetCore_inProgress s, resetCore_params s⟩

end Sys2Proof.Machine
end

section
/-! The encoder against the decoder, in both directions, and what the decoder reads (spec/30_encoding.md R55, R58 to R63). -/

namespace Sys2Proof

/-- Settles O11: the word of each command decodes to it; the operands are packed and unpacked again, and the index of RDSK
fits its 5 bits. -/
theorem decodeOfEncode : Obligations.DecodeOfEncode := by
  intro i hi
  cases i with
  | keyinit key => exact decode_keyinit key 0#64
  | encblk p => rw [encode, decode_encblk, Machine.unpackBlock_packBlock]
  | decblk c => rw [encode, decode_decblk, Machine.unpackBlock_packBlock]
  | rdsk k =>
    have hk : k < 32 := of_decide_eq_true hi
    rw [encode, decode_rdsk, BitVec.toNat_ofNat, Nat.mod_eq_of_lt hk]
  | rdck => exact decode_rdck 0#128 0#64

/-- Settles O12: of the five words that decode, each is its command's own, with the operands in their fields. -/
theorem encodeOfDecode : Obligations.EncodeOfDecode := by
  intro r i h
  rcases decode_command h with ⟨hw, rfl⟩ | ⟨hw, rfl⟩ | ⟨hw, rfl⟩ | ⟨hw, rfl⟩ | ⟨hw, rfl⟩
  · exact ⟨rfl, hw.symm, fun _ _ => rfl, by simp⟩
  · exact ⟨rfl, hw.symm, by simp, fun _ => Machine.packBlock_unpackBlock r.din⟩
  · exact ⟨rfl, hw.symm, by simp, fun _ => Machine.packBlock_unpackBlock r.din⟩
  · have hidx : BitVec.ofNat 5 (idxField r.cmd).toNat = idxField r.cmd := by simp
    exact ⟨decide_eq_true (idxField r.cmd).isLt, by rw [encode, hidx]; exact hw.symm, by simp, by simp⟩
  · exact ⟨rfl, hw.symm, by simp, by simp⟩

/-- Whether a request decodes is a matter of its command word alone, and of its operands the decoder reads only those of the
word's command (R55, R61). -/
theorem decode_congr {r r' : Request} (hcmd : r.cmd = r'.cmd) (hkey : r.cmd = cmdWord 1#4 0#5 → r.key = r'.key)
    (hdin : r.cmd = cmdWord 2#4 0#5 ∨ r.cmd = cmdWord 3#4 0#5 → r.din = r'.din) {i : Instr}
    (h : decode r = .command i) : decode r' = .command i := by
  obtain ⟨cmd, key', din'⟩ := r'
  obtain rfl : r.cmd = cmd := hcmd
  rcases decode_command h with ⟨hw, rfl⟩ | ⟨hw, rfl⟩ | ⟨hw, rfl⟩ | ⟨hw, rfl⟩ | ⟨hw, rfl⟩
  · rw [hkey hw, hw, decode_keyinit]
  · rw [hdin (.inl hw), hw, decode_encblk]
  · rw [hdin (.inr hw), hw, decode_decblk]
  · conv => lhs; rw [hw]
    exact decode_rdsk _ key' din'
  · rw [hw, decode_rdck]

/-- Settles O15: the two requests decode to the same command or are both illegal. -/
theorem ignoredFieldsHaveNoEffect : Obligations.IgnoredFieldsHaveNoEffect := by
  intro r r' s hcmd hkey hdin
  cases hd : decode r with
  | command i =>
    rw [Machine.runRequest_command hd, Machine.runRequest_command (decode_congr hcmd hkey hdin hd)]
  | illegal why =>
    obtain ⟨why', hd'⟩ : ∃ why', decode r' = .illegal why' := by
      rw [illegal_iff_no_row, ← hcmd, ← illegal_iff_no_row]
      exact ⟨why, hd⟩
    rw [Machine.runRequest_illegal hd, Machine.runRequest_illegal hd']

/-- Settles O10: the legal words are those of their commands, and each of the others has the fields of its class in R63. -/
theorem writtenOutWordsDecode : Obligations.WrittenOutWordsDecode := by
  have rdskWord : 0x00001904#32 = cmdWord 4#4 25#5 := by decide
  have zeroWord : 0x00000000#32 = cmdWord 0#4 0#5 := by decide
  have indexedWord : 0x00000102#32 = cmdWord 2#4 1#5 := by decide
  have block : Machine.unpackBlock 0x0706050403020100#64 = ⟨0x03020100#32, 0x07060504#32⟩ := by decide
  refine ⟨fun key din => ?_, fun key => ?_, fun key => ?_, fun key din => ?_, fun key din => ?_,
    fun key din => ?_, fun key din => ?_, fun key din => ?_⟩
  · rw [Machine.keyinitWord_eq, decode_keyinit]
  · rw [Machine.encblkWord_eq, decode_encblk, block]
  · rw [Machine.decblkWord_eq, decode_decblk, block]
  · rw [rdskWord, decode_rdsk]
    rfl
  · rw [Machine.rdckWord_eq, decode_rdck]
  · rw [zeroWord]
    simp [decode]
  · simp [decode, show rsv1Field 0x00002004#32 ≠ 0#19 by decide]
  · rw [indexedWord]
    simp [decode, needZeroIndex]

end Sys2Proof
end

section
/-! What a command leaves unchanged (spec/10_state.md R27, R29, spec/20_memory.md R40). -/

namespace Sys2Proof.Machine

/-- A command other than KEYINIT, ENCBLK and DECBLK writes no register. -/
theorem exec_life_of_no_writer {i : Instr} {s t : State} (hkey : ∀ key, i ≠ .keyinit key)
    (hblock : ∀ x, i ≠ .encblk x ∧ i ≠ .decblk x) (h : exec i s = .next t) : t.life = s.life := by
  cases i with
  | keyinit key => exact absurd rfl (hkey key)
  | encblk p => exact absurd rfl (hblock p).1
  | decblk c => exact absurd rfl (hblock c).2
  | rdsk k => exact Safety.exec_readback_life (.inr ⟨k, rfl⟩) h
  | rdck => exact Safety.exec_readback_life (.inl rfl) h

/-- A command other than KEYINIT keeps the subkey table and KEYED: a block command writes the chain vector beside them. -/
theorem exec_keeps_subkeys {i : Instr} {s t : State} (hkey : ∀ key, i ≠ .keyinit key) (h : exec i s = .next t) :
    t.S = s.S ∧ t.KEYED = s.KEYED := by
  rcases exec_cases i s with ⟨st, -, e⟩ | ⟨key, rfl, -⟩ | ⟨S, CK, p, -, hl, e⟩ | ⟨S, CK, c, -, hl, e⟩ |
    ⟨S, CK, d, -, -, e⟩
  · cases e.symm.trans h
    exact ⟨rfl, rfl⟩
  · exact absurd rfl (hkey key)
  · cases e.symm.trans h
    simp [keyed_of_life hl]
  · cases e.symm.trans h
    simp [keyed_of_life hl]
  · cases e.symm.trans h
    exact ⟨rfl, rfl⟩

/-- Settles O23: the host's side is `exec_frame`, and the registers are the two lemmas above. -/
theorem commandFrames : Obligations.CommandFrames := by
  intro i s t h
  obtain ⟨hparams, hagents, hschedule, hmem, -⟩ := exec_frame h
  refine ⟨hparams, hagents, hschedule, fun a => by rw [hmem], fun hkey => exec_keeps_subkeys hkey h, fun hkey hblock => ?_⟩
  obtain ⟨-, -, hCK⟩ := views_of_life_eq (exec_life_of_no_writer hkey hblock h)
  exact hCK

end Sys2Proof.Machine
end

section
/-! One step at the port: reset, completion, a placed request, and the turn of an agent (spec/30_encoding.md R55,
spec/70_reset_and_hazards.md R181, R182, R190). -/

namespace Sys2Proof.Machine

/-- Settles O41: the step is `resetCore` at the state with the event taken, and an uninitialized core has no value in its
registers. -/
theorem resetAbandonsTheCommand : Obligations.ResetAbandonsTheCommand := fun s rest h =>
  ⟨resetCore { s with schedule := rest }, step_reset h, rfl, rfl, rfl, rfl, rfl, rfl, rfl, rfl, rfl⟩

/-- Settles O42: with nothing in progress there is nothing to complete. -/
theorem idleCoreWaits : Obligations.IdleCoreWaits := by
  have waits : ∀ s : State, s.schedule = [] → s.inProgress = none → step s = .next s :=
    fun s hs hidle => (step_empty hs).trans (complete_idle hidle)
  exact ⟨waits State.reset rfl rfl, waits, fun s rest hs hidle => (step_complete hs).trans (complete_idle hidle)⟩

/-- Settles O43: completing is delivering what the request in progress answers (`complete_of_run`). -/
theorem stepRunsTheDecodedCommand : Obligations.StepRunsTheDecodedCommand := by
  refine ⟨fun s t f rest i resp hs hf hd ht hresp => ?_, fun s t f i resp hs hf hd ht hresp => ?_,
    fun s f rest why hs hf hd => ?_⟩
  · exact (step_complete hs).trans (complete_of_run hf ((runRequest_command hd _).trans ht) hresp)
  · exact (step_empty hs).trans (complete_of_run hf ((runRequest_command hd _).trans ht) hresp)
  · exact (step_complete hs).trans (complete_of_run hf (runRequest_illegal hd _) rfl)

/-- The instruction of an opcode-table word is that of its request. -/
theorem decode_of_decodeTableWord {nbits w : Nat} {i : Instr} (h : decodeTableWord nbits w = some i) :
    decode (requestOfNumber nbits w) = .command i := by
  unfold decodeTableWord at h
  cases hd : decode (requestOfNumber nbits w) with
  | command j =>
    rw [hd] at h
    exact congrArg Decoded.command (Option.some.inj h)
  | illegal why =>
    rw [hd] at h
    cases h

/-- A response for an agent that is not there is seen at the port only (log entry 4). -/
theorem deliver_absent {n : Nat} {resp : Response} {s : State} (h : s.agents[n]? = none) :
    deliver n resp s = .next s := by
  simp [deliver, h]

/-- The very next step runs a placed request; its agent number is that of no agent (log entry 4). -/
theorem step_placeRequest {r : Request} {s t : State}
    (h : runRequest r { s with inProgress := some ⟨s.agents.length, r⟩ } = .next t) :
    step (placeRequest r s) = .next t := by
  obtain ⟨u, resp, hu, hresp, -⟩ := runRequest_answers r { s with inProgress := some ⟨s.agents.length, r⟩ }
  obtain rfl := Host.Outcome.next.inj (hu.symm.trans h)
  obtain ⟨-, hagents, -⟩ := runRequest_frame hu
  have habsent : u.agents[s.agents.length]? = none := by simp [hagents]
  calc step (placeRequest r s)
      = complete { s with inProgress := some ⟨s.agents.length, r⟩ } := step_complete rfl
    _ = deliver s.agents.length resp u := complete_of_run (f := ⟨s.agents.length, r⟩) rfl hu hresp
    _ = .next u := deliver_absent habsent

/-- Settles O44: the placed request runs next (`step_placeRequest`), and it is the request of the decoded word. -/
theorem placedWordRunsNext : Obligations.PlacedWordRunsNext := fun _ _ _ _ _ hd ht =>
  step_placeRequest ((runRequest_command (decode_of_decodeTableWord hd) _).trans ht)

/-- A command is offered when its agent begins it (R145). -/
theorem beginOp_command {n : Nat} {ag : Agent} {r : Request} {ops : List HostOp} {s : State}
    (htodo : ag.todo = .command r :: ops) : beginOp n ag s = .next (offer n ag r s) := by
  simp [beginOp, htodo]

/-- A held agent presents the request that it is held with (R190). -/
theorem present_held {n : Nat} {s : State} {ag : Agent} {r : Request} (hag : s.agents[n]? = some ag)
    (hfree : awaitsResponse n s = false) (hwaiting : ag.waiting = some r) : present n s = .next (offer n ag r s) := by
  simp [present, hag, hfree, hwaiting]

/-- The turn of an agent that is neither held nor waiting for a response offers the command that it has to do (R55, R190). -/
theorem step_offers_command {s : State} {n : Nat} {rest : List Event} {ag : Agent} {r : Request} {ops : List HostOp}
    (hs : s.schedule = .present n :: rest) (hag : s.agents[n]? = some ag) (hwaiting : ag.waiting = none)
    (htodo : ag.todo = .command r :: ops) (hother : ∀ f, s.inProgress = some f → f.agent ≠ n) :
    step s = .next (offer n ag r { s with schedule := rest }) := by
  have hfree : awaitsResponse n { s with schedule := rest } = false := awaitsResponse_eq_false hother
  calc step s = present n { s with schedule := rest } := step_present hs
    _ = beginOp n ag { s with schedule := rest } := present_eq_beginOp hag hfree hwaiting
    _ = _ := beginOp_command htodo

/-- The turn of a held agent, when nothing is in progress, offers the request it is held with (R190). -/
theorem step_offers_held {s : State} {n : Nat} {rest : List Event} {ag : Agent} {r : Request}
    (hs : s.schedule = .present n :: rest) (hag : s.agents[n]? = some ag) (hwaiting : ag.waiting = some r)
    (hidle : s.inProgress = none) : step s = .next (offer n ag r { s with schedule := rest }) := by
  have hfree : awaitsResponse n { s with schedule := rest } = false := awaitsResponse_none hidle
  exact (step_present hs).trans (present_held hag hfree hwaiting)

/-- Settles O45: the turn offers the agent's command or its held request, which an idle core accepts and a busy one holds
(`offer_idle`, `offer_busy`). -/
theorem acceptWhenIdleHoldWhenBusy : Obligations.AcceptWhenIdleHoldWhenBusy := by
  refine ⟨fun s n rest ag r ops hs hag hwaiting htodo hidle => ?_,
    fun s n rest ag r f ops hs hag hwaiting htodo hf hother => ?_, fun s n rest ag r hs hag hwaiting hidle => ?_⟩
  · have hturn := step_offers_command hs hag hwaiting htodo (by simp [hidle])
    have hsame : s.agents.set n { ag with waiting := none } = s.agents := by
      obtain ⟨hn, rfl⟩ := List.getElem?_eq_some_iff.mp hag
      rw [← hwaiting]
      exact List.set_getElem_self hn
    rw [offer_idle (s := { s with schedule := rest }) hidle] at hturn
    exact ⟨_, hturn, rfl, rfl, rfl, rfl, hsame⟩
  · have hturn := step_offers_command hs hag hwaiting htodo (by simpa [hf] using hother)
    rw [offer_busy (s := { s with schedule := rest }) hf] at hturn
    exact ⟨_, hturn, rfl, rfl, rfl, rfl, rfl⟩
  · have hturn := step_offers_held hs hag hwaiting hidle
    rw [offer_idle (s := { s with schedule := rest }) hidle] at hturn
    exact ⟨_, hturn, rfl, rfl, rfl, rfl, rfl⟩

end Sys2Proof.Machine
end

section
/-! Buffers of a stream call against host memory (spec/45_stream_host.md R153). -/

namespace Sys2Proof.Machine

theorem isHostMemory_iff {m : List Host.Cell} {addr len : Nat} :
    isHostMemory m addr len = true ↔ ∀ k, k < len → readByte m (addr + k) ≠ none := by
  simp [isHostMemory, Option.isSome_iff_ne_none]

/-- A part of host memory is host memory. -/
theorem isHostMemory_part {m : List Host.Cell} {addr len addr' len' : Nat} (h : isHostMemory m addr len = true)
    (hlo : addr ≤ addr') (hhi : addr' + len' ≤ addr + len) : isHostMemory m addr' len' = true := by
  rw [isHostMemory_iff] at h ⊢
  intro k hk
  rw [show addr' + k = addr + (addr' - addr + k) by omega]
  exact h _ (by omega)

theorem buffersOk_iff {m : List Host.Cell} {c : StreamCall} :
    buffersOk m c = true ↔ isHostMemory m c.inp c.len = true ∧ isHostMemory m c.out c.len = true := by
  simp [buffersOk]

/-- A write changes the bytes of host memory but not what is host memory. -/
theorem buffersOk_memWrite {n : Nat} {m m' : List Host.Cell} {addr : Nat} {v : BitVec (8 * n)}
    (h : memWrite m addr n v = some m') (c : StreamCall) : buffersOk m' c = buffersOk m c := by
  simp [buffersOk, isHostMemory_memWrite h]

/-- The next input block of a call over host memory can be read. -/
theorem memRead_of_buffersOk {m : List Host.Cell} {c : StreamCall} (h : buffersOk m c = true) (hlen : 8 ≤ c.len) :
    ∃ v, memRead m c.inp 8 = some v := by
  have hpart : isHostMemory m c.inp 8 = true := isHostMemory_part (buffersOk_iff.mp h).1 (le_refl _) (by omega)
  exact Option.isSome_iff_exists.mp ((memRead_isSome m c.inp 8).trans hpart)

/-- The next output block of a call over host memory can be written. -/
theorem memWrite_of_buffersOk {m : List Host.Cell} {c : StreamCall} (h : buffersOk m c = true) (hlen : 8 ≤ c.len)
    (v : DWord) : ∃ m', memWrite m c.out 8 v = some m' := by
  have hpart : isHostMemory m c.out 8 = true := isHostMemory_part (buffersOk_iff.mp h).2 (le_refl _) (by omega)
  exact Option.isSome_iff_exists.mp ((memWrite_isSome m c.out 8 v).trans hpart)

/-- A call over anything but host memory is refused when its agent begins it (R153). -/
theorem beginOp_stream_refused {n : Nat} {ag : Agent} {c : StreamCall} {ops : List HostOp} {s : State}
    (htodo : ag.todo = .stream c :: ops) (hbuf : buffersOk s.mem c = false) :
    beginOp n ag s = .refused (.bufferNotHostMemory c) := by
  simp [beginOp, htodo, hbuf]

/-- Beginning an operation answers a next state, but for a call over anything but host memory. -/
theorem beginOp_answers_or_refuses (n : Nat) (ag : Agent) (s : State) :
    (∃ t, beginOp n ag s = .next t) ∨
      ∃ c ops, ag.todo = .stream c :: ops ∧ buffersOk s.mem c = false := by
  cases htodo : ag.todo with
  | nil => exact .inl ⟨s, by simp [beginOp, htodo]⟩
  | cons op ops =>
    cases op with
    | command r => exact .inl ⟨_, beginOp_command htodo⟩
    | stream c =>
      cases hbuf : buffersOk s.mem c with
      | false => exact .inr ⟨c, ops, rfl, hbuf⟩
      | true =>
        rcases Nat.lt_or_ge c.len 8 with hlen | hlen
        · exact .inl ⟨_, beginOp_stream_short htodo hbuf hlen⟩
        · obtain ⟨din, hread⟩ := memRead_of_buffersOk hbuf hlen
          exact .inl ⟨_, beginOp_stream_block htodo hbuf hlen hread⟩

/-- So does presenting. -/
theorem present_answers_or_refuses (n : Nat) (s : State) :
    (∃ t, present n s = .next t) ∨
      ∃ ag c ops, s.agents[n]? = some ag ∧ ag.todo = .stream c :: ops ∧ buffersOk s.mem c = false ∧
        present n s = .refused (.bufferNotHostMemory c) := by
  cases hag : s.agents[n]? with
  | none => exact .inl ⟨s, by simp [present, hag]⟩
  | some ag =>
    cases hfree : awaitsResponse n s with
    | true => exact .inl ⟨s, by simp [present, hag, hfree]⟩
    | false =>
      cases hwaiting : ag.waiting with
      | some r => exact .inl ⟨_, present_held hag hfree hwaiting⟩
      | none =>
        rw [present_eq_beginOp hag hfree hwaiting]
        rcases beginOp_answers_or_refuses n ag s with ht | ⟨c, ops, htodo, hbuf⟩
        · exact .inl ht
        · exact .inr ⟨ag, c, ops, rfl, htodo, hbuf, beginOp_stream_refused htodo hbuf⟩

/-- Settles O57: the step is the agent's turn, and a byte without a value makes its buffer no host memory. -/
theorem badBuffersAreRefused : Obligations.BadBuffersAreRefused := by
  intro s n rest ag c ops hs hag hwaiting htodo hother hbyte
  have hfree : awaitsResponse n { s with schedule := rest } = false := awaitsResponse_eq_false hother
  have hbuf : buffersOk s.mem c = false := by
    rw [Bool.eq_false_iff, ne_eq, buffersOk_iff, isHostMemory_iff, isHostMemory_iff]
    rintro ⟨hin, hout⟩
    obtain ⟨k, hk, hnone | hnone⟩ := hbyte
    · exact hin k hk hnone
    · exact hout k hk hnone
  calc step s = present n { s with schedule := rest } := step_present hs
    _ = beginOp n ag { s with schedule := rest } := present_eq_beginOp hag hfree hwaiting
    _ = .refused (.bufferNotHostMemory c) := beginOp_stream_refused htodo hbuf

end Sys2Proof.Machine
end

section
/-! The invariant: each operation of the port and of the host's side keeps it, so each step does, and from a state that meets
it only a stream call over anything but host memory stops the machine (spec/45_stream_host.md R153). -/

namespace Sys2Proof.Safety

open Sys2Proof.Machine

/-- An agent of the list after one agent is replaced. -/
theorem agent_of_set {as : List Agent} {n k : Nat} {a b : Agent} (h : (as.set n a)[k]? = some b) :
    (k = n ∧ b = a) ∨ (k ≠ n ∧ as[k]? = some b) := by
  by_cases hk : n = k
  · subst hk
    obtain ⟨hn, rfl⟩ := List.getElem?_eq_some_iff.mp h
    exact .inl ⟨rfl, List.getElem_set_self hn⟩
  · rw [List.getElem?_set_ne hk] at h
    exact .inr ⟨Ne.symm hk, h⟩

/-- What an agent presents depends on host memory through its buffers only. -/
theorem presents_congr {m m' : List Host.Cell} (h : ∀ c, buffersOk m' c = buffersOk m c) {todo : List HostOp} {r : Request}
    (hp : presents m todo r) : presents m' todo r := by
  unfold presents at *
  split <;> simp_all

/-- The invariant does not read the schedule. -/
theorem inv_schedule {s : State} (h : Inv s) (rest : List Event) : Inv { s with schedule := rest } :=
  ⟨h.memory, h.subkeys, h.errorDout, h.inProgress, h.held⟩

/-- Replacing an agent whose request is not in progress keeps the invariant, if the new one is not held or presents what it
is held with. -/
theorem inv_setAgent {s : State} {n : Nat} {ag : Agent} (h : Inv s) (hfree : ∀ f, s.inProgress = some f → f.agent ≠ n)
    (hheld : ∀ r, ag.waiting = some r → presents s.mem ag.todo r) : Inv (setAgent n ag s) where
  memory := h.memory
  subkeys := h.subkeys
  errorDout := h.errorDout
  inProgress := by
    intro f b hf hb
    rcases agent_of_set hb with ⟨rfl, -⟩ | ⟨-, hb⟩
    · exact absurd rfl (hfree f hf)
    · exact h.inProgress f b hf hb
  held := by
    intro k b r hb hr
    rcases agent_of_set hb with ⟨-, rfl⟩ | ⟨-, hb⟩
    · exact hheld r hr
    · exact h.held k b r hb hr

/-- Accepting a request keeps the invariant, if it is the one its agent presents and the agent is no longer held. -/
theorem inv_accept {s : State} {n : Nat} {r : Request} (h : Inv s)
    (hag : ∀ ag, s.agents[n]? = some ag → ag.waiting = none ∧ presents s.mem ag.todo r) :
    Inv { s with inProgress := some ⟨n, r⟩ } where
  memory := h.memory
  subkeys := h.subkeys
  errorDout := h.errorDout
  inProgress := by
    intro f ag hf hn
    cases hf
    exact hag ag hn
  held := h.held

/-- Offering the request that the agent presents keeps the invariant, whether the core accepts it or holds the agent. -/
theorem inv_offer {s : State} {n : Nat} {ag : Agent} {r : Request} (h : Inv s) (hfree : awaitsResponse n s = false)
    (hp : presents s.mem ag.todo r) : Inv (offer n ag r s) := by
  cases hf : s.inProgress with
  | none =>
    have hset : Inv (setAgent n { ag with waiting := none } s) := inv_setAgent h (by simp [hf]) (by simp)
    rw [offer_idle hf]
    refine inv_accept hset fun b hb => ?_
    rcases agent_of_set hb with ⟨-, rfl⟩ | ⟨hne, -⟩
    · exact ⟨rfl, hp⟩
    · exact absurd rfl hne
  | some f =>
    have hother : f.agent ≠ n := by simpa [awaitsResponse_some hf] using hfree
    rw [offer_busy hf]
    refine inv_setAgent h (by simpa [hf] using hother) fun q hq => ?_
    obtain rfl := Option.some.inj hq
    exact hp

/-- An agent's turn keeps the invariant. -/
theorem inv_present {n : Nat} {s t : State} (h : Inv s) (ht : present n s = .next t) : Inv t := by
  rcases present_cases ht with rfl | ⟨ag, r, hag, hfree, hwaiting, rfl⟩ | ⟨ag, r, rest, hag, hfree, -, htodo, rfl⟩ |
    ⟨ag, c, rest, hag, hfree, hwaiting, -, -, -, rfl⟩ | ⟨ag, c, rest, din, hag, hfree, -, htodo, hbuf, hlen, -, rfl⟩
  · exact h
  · exact inv_offer h hfree (h.held n ag r hag hwaiting)
  · exact inv_offer h hfree (by simp [presents, htodo])
  · refine inv_setAgent h (fun f hf => ?_) (by simp [hwaiting])
    simpa [awaitsResponse_some hf] using hfree
  · exact inv_offer h hfree (by simp [presents, htodo, hbuf, hlen])

/-- Writing host memory keeps the invariant. -/
theorem inv_memWrite {s : State} {k addr : Nat} {v : BitVec (8 * k)} {m : List Host.Cell} (h : Inv s)
    (hm : memWrite s.mem addr k v = some m) : Inv { s with mem := m } where
  memory := memWrite_wf hm h.memory
  subkeys := h.subkeys
  errorDout := h.errorDout
  inProgress f ag hf hag :=
    ⟨(h.inProgress f ag hf hag).1, presents_congr (buffersOk_memWrite hm) (h.inProgress f ag hf hag).2⟩
  held n ag r hag hr := presents_congr (buffersOk_memWrite hm) (h.held n ag r hag hr)

/-- Delivering a response to an agent that is not held keeps the invariant. -/
theorem inv_deliver {n : Nat} {resp : Response} {s t : State} (h : Inv s) (hidle : s.inProgress = none)
    (hfree : ∀ ag, s.agents[n]? = some ag → ag.waiting = none) (ht : deliver n resp s = .next t) : Inv t := by
  have goesOn {u : State} {ag ag' : Agent} (hu : Inv u) (hui : u.inProgress = none) (hag : s.agents[n]? = some ag)
      (hsame : ag'.waiting = ag.waiting) : Inv (setAgent n ag' u) :=
    inv_setAgent hu (by simp [hui]) (by simp [hsame, hfree ag hag])
  rcases deliver_cases ht with rfl | ⟨ag, q, rest, hag, -, rfl⟩ | ⟨ag, c, rest, m, hag, -, -, hm, rfl⟩ |
    ⟨ag, c, rest, hag, -, -, rfl⟩
  · exact h
  · exact goesOn h hidle hag rfl
  · exact goesOn (inv_memWrite h hm) hidle hag rfl
  · exact goesOn h hidle hag rfl

/-- A command leaves the subkey table as it was, or expanded from KEYINIT's key (R27). -/
theorem subkeys_of_runRequest {r : Request} {s u : State} (hu : runRequest r s = .next u) :
    u.S = s.S ∨ ∃ key, u.S = some (expand key) := by
  rcases runRequest_cases r s with ⟨st, -, e⟩ | ⟨key, -, e⟩ | ⟨S, ck, p, -, hl, e⟩ | ⟨S, ck, c, -, hl, e⟩ |
      ⟨S, ck, d, -, -, e⟩ <;>
    obtain rfl := Host.Outcome.next.inj (e.symm.trans hu)
  · exact .inl rfl
  · exact .inr ⟨key, rfl⟩
  · exact .inl (by simp [keyed_of_life hl])
  · exact .inl (by simp [keyed_of_life hl])
  · exact .inl rfl

/-- Running a request keeps the invariant. -/
theorem inv_runRequest {r : Request} {s u : State} (h : Inv s) (hu : runRequest r s = .next u) : Inv u := by
  obtain ⟨-, hagents, -, hmem, hidle⟩ := runRequest_frame hu
  refine ⟨hmem ▸ h.memory, fun S hS => ?_, fun resp hr herr => ?_, by simp [hidle], ?_⟩
  · rcases subkeys_of_runRequest hu with hsame | ⟨key, hkey⟩
    · exact h.subkeys S (hsame ▸ hS)
    · exact ⟨key, Option.some.inj (hS.symm.trans hkey)⟩
  · obtain ⟨-, hdout, -⟩ := runRequest_error hu hr herr
    exact hdout
  · rw [hagents, hmem]
    exact h.held

/-- Completing the request in progress keeps the invariant. -/
theorem inv_complete {s t : State} (h : Inv s) (ht : complete s = .next t) : Inv t := by
  cases hf : s.inProgress with
  | none =>
    obtain rfl := Host.Outcome.next.inj ((complete_idle hf).symm.trans ht)
    exact h
  | some f =>
    obtain ⟨u, resp, hu, -, hdeliver⟩ := complete_busy hf
    obtain ⟨-, hagents, -, -, hidle⟩ := runRequest_frame hu
    refine inv_deliver (inv_runRequest h hu) hidle (fun ag hag => ?_) (hdeliver.symm.trans ht)
    exact (h.inProgress f ag hf (hagents ▸ hag)).1

/-- Reset keeps the invariant: nothing is left of the core, and the host's side is as it was. -/
theorem inv_resetCore {s : State} (h : Inv s) : Inv (resetCore s) :=
  ⟨h.memory, nofun, nofun, nofun, h.held⟩

/-- Settles O49, by the events: each is one of the operations that keep the invariant. -/
theorem stepKeepsInvariant : Obligations.StepKeepsInvariant := by
  intro s t h ht
  rcases step_cases ht with ⟨-, hc⟩ | ⟨rest, -, hc⟩ | ⟨n, rest, -, hp⟩ | ⟨rest, -, rfl⟩
  · exact inv_complete h hc
  · exact inv_complete (inv_schedule h rest) hc
  · exact inv_present (inv_schedule h rest) hp
  · exact inv_resetCore (inv_schedule h rest)

/-- Settles O50: after reset there is no memory, no table, no response, no request and no agent. -/
theorem resetHasInvariant : Obligations.ResetHasInvariant :=
  ⟨List.Pairwise.nil, nofun, nofun, nofun, nofun⟩

/-- Delivering the response of the request that the agent presents is never refused: the output block of a stream call is
host memory. -/
theorem deliver_answers {n : Nat} {resp : Response} {r : Request} {s : State}
    (hp : ∀ ag, s.agents[n]? = some ag → presents s.mem ag.todo r) : ∃ t, deliver n resp s = .next t := by
  unfold deliver
  split
  · exact ⟨s, rfl⟩
  · next ag hag =>
    have hag := hp ag hag
    split
    · exact ⟨_, rfl⟩
    · exact ⟨_, rfl⟩
    · next c ops htodo =>
      rw [htodo] at hag
      obtain ⟨-, hlen, hbuf⟩ := hag
      obtain ⟨m, hm⟩ := memWrite_of_buffersOk hbuf hlen resp.dout
      rw [hm]
      split <;> exact ⟨_, rfl⟩

/-- A request in progress completes, with a response (R196). -/
theorem complete_answers {s : State} {f : InFlight} (h : Inv s) (hf : s.inProgress = some f) :
    ∃ t resp, complete s = .next t ∧ t.inProgress = none ∧ t.response = some resp := by
  obtain ⟨u, resp, hu, hresp, hdeliver⟩ := complete_busy hf
  obtain ⟨-, hagents, -, hmem, hidle⟩ := runRequest_frame hu
  obtain ⟨t, ht⟩ : ∃ t, deliver f.agent resp u = .next t := by
    refine deliver_answers (r := f.req) fun ag hag => ?_
    rw [hmem]
    exact (h.inProgress f ag hf (hagents ▸ hag)).2
  obtain ⟨-, -, hresponse, hinProgress⟩ := deliver_core ht
  exact ⟨t, resp, hdeliver.trans ht, hinProgress.trans hidle, hresponse.trans hresp⟩

/-- Completing never stops the machine. -/
theorem complete_never_stops {s : State} (h : Inv s) : ∃ t, complete s = .next t := by
  cases hf : s.inProgress with
  | none => exact ⟨s, complete_idle hf⟩
  | some f =>
    obtain ⟨t, -, ht, -⟩ := complete_answers h hf
    exact ⟨t, ht⟩

/-- Settles O51: of the events only an agent's turn can be refused, and `present_answers_or_refuses` says when. -/
theorem onlyBadBuffersStop : Obligations.OnlyBadBuffersStop := by
  intro s h
  cases hs : s.schedule with
  | nil => exact .inl (step_empty hs ▸ complete_never_stops h)
  | cons e rest =>
    cases e with
    | complete => exact .inl (step_complete hs ▸ complete_never_stops (inv_schedule h rest))
    | reset => exact .inl ⟨_, step_reset hs⟩
    | present n =>
      rw [step_present hs]
      rcases present_answers_or_refuses n { s with schedule := rest } with ht | ⟨ag, c, ops, hag, htodo, hbuf, hrefused⟩
      · exact .inl ht
      · exact .inr ⟨n, rest, ag, c, ops, rfl, hag, htodo, hbuf, hrefused⟩

/-- Settles O52: with either kind of completion the step is `complete`. -/
theorem acceptedRequestCompletes : Obligations.AcceptedRequestCompletes := by
  rintro s f h hf (hs | ⟨rest, hs⟩)
  · exact step_empty hs ▸ complete_answers h hf
  · exact step_complete hs ▸ complete_answers (inv_schedule h rest) hf

end Sys2Proof.Safety
end

section
/-! An agent that has the core to itself: two steps for each request, and the session it runs (spec/20_memory.md section 5,
spec/45_stream_host.md R145). -/

namespace Sys2Proof.Safety

open Sys2Proof.Machine

/-- `s` with the agent `ag` alone on the host's side, an idle core, and these events to come. -/
def alone (ag : Agent) (events : List Event) (s : State) : State :=
  { s with inProgress := none, agents := [ag], schedule := events }

/-- The same with the agent's request `r` in progress. -/
def aloneServed (r : Request) (ag : Agent) (events : List Event) (s : State) : State :=
  { s with inProgress := some ⟨0, r⟩, agents := [ag], schedule := events }

theorem solo_eq_alone (todo : List HostOp) (events : List Event) (s : State) :
    solo todo events s = alone ⟨todo, none, []⟩ events s := rfl

/-- A run goes on from the state that its first step answers. -/
theorem run_of_step {s t : State} (h : step s = .next t) (k : Nat) :
    Host.Core.run core (k + 1) s = Host.Core.run core k t := by
  have hcore : core.step s = .next t := h
  simp only [Host.Core.run, hcore]

/-- The turn of an agent that is alone: the idle core accepts the request it offers. -/
theorem step_alone_present {todo : List HostOp} {got : List Receipt} {r : Request} {es : List Event} {s : State}
    (hoffer : beginOp 0 ⟨todo, none, got⟩ (alone ⟨todo, none, got⟩ es s) =
      .next (offer 0 ⟨todo, none, got⟩ r (alone ⟨todo, none, got⟩ es s))) :
    step (alone ⟨todo, none, got⟩ (.present 0 :: es) s) = .next (aloneServed r ⟨todo, none, got⟩ es s) :=
  calc step (alone ⟨todo, none, got⟩ (.present 0 :: es) s)
      = present 0 (alone ⟨todo, none, got⟩ es s) := step_present rfl
    _ = beginOp 0 ⟨todo, none, got⟩ (alone ⟨todo, none, got⟩ es s) :=
      present_eq_beginOp rfl (awaitsResponse_none rfl) rfl
    _ = .next (offer 0 ⟨todo, none, got⟩ r (alone ⟨todo, none, got⟩ es s)) := hoffer
    _ = .next (aloneServed r ⟨todo, none, got⟩ es s) := congrArg Host.Outcome.next (offer_idle rfl)

/-- The completion of its request: the core is left as the request leaves it, and the response is delivered. -/
theorem step_aloneServed_complete {ag : Agent} {r : Request} {es : List Event} {s u : State} {resp : Response}
    (hu : runRequest r s = .next u) (hresp : u.response = some resp) :
    step (aloneServed r ag (.complete :: es) s) = deliver 0 resp (alone ag es u) := by
  have hrun : runRequest r (aloneServed r ag es s) = .next (alone ag es u) := by
    obtain ⟨hparams, -, -, hmem, -⟩ := runRequest_frame hu
    rw [runRequest_congr (a := s) (aloneServed r ag es s) rfl rfl hu]
    simp [aloneServed, alone, hparams, hmem]
  calc step (aloneServed r ag (.complete :: es) s)
      = complete (aloneServed r ag es s) := step_complete rfl
    _ = deliver 0 resp (alone ag es u) := complete_of_run (f := ⟨0, r⟩) rfl hrun hresp

/-- Both steps of a request of an agent that is alone. -/
theorem run_turn {todo : List HostOp} {got : List Receipt} {r : Request} {es : List Event} {s u t : State}
    {resp : Response}
    (hoffer : beginOp 0 ⟨todo, none, got⟩ (alone ⟨todo, none, got⟩ (.complete :: es) s) =
      .next (offer 0 ⟨todo, none, got⟩ r (alone ⟨todo, none, got⟩ (.complete :: es) s)))
    (hu : runRequest r s = .next u) (hresp : u.response = some resp)
    (ht : deliver 0 resp (alone ⟨todo, none, got⟩ es u) = .next t) (k : Nat) :
    Host.Core.run core (k + 2) (alone ⟨todo, none, got⟩ (.present 0 :: .complete :: es) s) =
      Host.Core.run core k t := by
  rw [run_of_step (step_alone_present hoffer), run_of_step ((step_aloneServed_complete hu hresp).trans ht)]

/-- The two steps of a command: the core is left as the command leaves it, and the agent has its response. -/
theorem run_command {i : Instr} {s u : State} {r : Response} (hwf : i.wellFormed = true)
    (h : perform i s = some (u, r)) (ops : List HostOp) (got : List Receipt) (es : List Event) (k : Nat) :
    Host.Core.run core (k + 2)
      (alone ⟨.command (encode i) :: ops, none, got⟩ (.present 0 :: .complete :: es) s) =
      Host.Core.run core k (alone ⟨ops, none, got ++ [.response r]⟩ es u) := by
  obtain ⟨hexec, hresp⟩ := exec_of_perform h
  exact run_turn (beginOp_command rfl) ((runRequest_command (decodeOfEncode i hwf) s).trans hexec) hresp rfl k

/-- The steps of a session. -/
theorem run_session {is : List Instr} {s t : State} {rs : List Response} (hwf : ∀ i ∈ is, i.wellFormed = true)
    (h : performAll is s = some (t, rs)) (got : List Receipt) (es : List Event) :
    Host.Core.run core (2 * is.length)
      (alone ⟨is.map fun i => .command (encode i), none, got⟩ (soloEvents is.length ++ es) s) =
      .next (alone ⟨[], none, got ++ rs.map .response⟩ es t) := by
  induction is generalizing s rs got with
  | nil =>
    cases h
    rw [List.map_nil, List.map_nil, List.append_nil]
    rfl
  | cons i is ih =>
    obtain ⟨hi, his⟩ := List.forall_mem_cons.mp hwf
    obtain ⟨u, r, rs, hu, hrest, rfl⟩ := performAll_cons h
    have hturn := run_command hi hu (is.map fun i => .command (encode i)) got (soloEvents is.length ++ es)
      (2 * is.length)
    rw [ih his hrest, List.append_assoc] at hturn
    exact hturn

/-- A session that is not empty leaves nothing in progress. -/
theorem performAll_idle {is : List Instr} {s t : State} {rs : List Response} (h : performAll is s = some (t, rs))
    (hne : is ≠ []) : t.inProgress = none := by
  induction is generalizing s rs with
  | nil => exact absurd rfl hne
  | cons i is ih =>
    obtain ⟨u, r, rs, hu, hrest, rfl⟩ := performAll_cons h
    cases is with
    | nil =>
      cases hrest
      obtain ⟨-, -, -, -, hidle⟩ := exec_frame (exec_of_perform hu).1
      exact hidle
    | cons j js => exact ih hrest nofun

/-- Settles O53, by induction on the session (`run_session`). -/
theorem soloAgentRunsTheSession : Obligations.SoloAgentRunsTheSession := by
  intro is s t rs rest hwf h hne
  rw [solo_eq_alone, run_session hwf h, List.nil_append, alone, ← performAll_idle h hne]

end Sys2Proof.Safety
end

section
/-! The block requests of a stream call, answered in both states of the core (spec/45_stream_host.md R146, R147, R152). -/

namespace Sys2Proof.Machine

/-- A stream call's request decodes to the block command of its direction, on the block that was read (R146, R147). -/
theorem decode_streamCmd (c : StreamCall) (key : Key) (din : DWord) :
    decode ⟨c.cmd, key, din⟩ = .command (Safety.blockCommand c.dir (unpackBlock din)) := by
  unfold StreamCall.cmd
  cases c.dir with
  | enc =>
    dsimp only
    rw [encblkWord_eq]
    exact decode_encblk key din
  | dec =>
    dsimp only
    rw [decblkWord_eq]
    exact decode_decblk key din

theorem blockCommand_ne_keyinit (d : Direction) (x : Block) (key : Key) : Safety.blockCommand d x ≠ .keyinit key := by
  cases d <;> exact Instr.noConfusion

/-- A stream call that is delivered an error ends with its status, and nothing is written (R152). -/
theorem deliver_stream_error {n : Nat} {ag : Agent} {c : StreamCall} {ops : List HostOp} {s : State} {resp : Response}
    (hag : s.agents[n]? = some ag) (htodo : ag.todo = .stream c :: ops) (herr : resp.status ≠ .ok) :
    deliver n resp s =
      .next (setAgent n { ag with todo := ops, received := ag.received ++ [.returned resp.status] } s) := by
  simp [deliver, hag, htodo, herr]

/-- Settles O56: the request decodes to a block command, which the KEYED guard answers while KEYED is 0; on a keyed core it
answers OK (`perform_blockCommand`). -/
theorem streamStopsOnError : Obligations.StreamStopsOnError := by
  intro s f rest ag c ops din hs hf hag htodo hreq
  have hd : decode f.req = .command (Safety.blockCommand c.dir (unpackBlock din)) := hreq ▸ decode_streamCmd c 0#128 din
  constructor
  · intro hkeyed
    have hrun : runRequest f.req { s with schedule := rest } = .next (raiseError .errNotKeyed { s with schedule := rest }) :=
      (runRequest_command hd _).trans (exec_notKeyed hkeyed (blockCommand_ne_keyinit c.dir _))
    calc step s = complete { s with schedule := rest } := step_complete hs
      _ = deliver f.agent ⟨.errNotKeyed, 0#64⟩ (raiseError .errNotKeyed { s with schedule := rest }) :=
        complete_of_run hf hrun rfl
      _ = _ := deliver_stream_error hag htodo nofun
  · intro hkeyed u hu
    obtain ⟨S, ck, hl⟩ := (keyed_iff_values s).mp hkeyed
    obtain ⟨t, hperform, -⟩ := Safety.perform_blockCommand hl c.dir (unpackBlock din)
    obtain ⟨hexec, hresp⟩ := Safety.exec_of_perform hperform
    obtain rfl := Host.Outcome.next.inj ((hexec.symm.trans (runRequest_command hd s).symm).trans hu)
    exact ⟨_, hresp⟩

end Sys2Proof.Machine
end

section
/-! Stream calls on a keyed core. What the blocks of a call do to the chain vector and to host memory is one function,
`streamBlocks`; the driver's run computes it, two calls in a row compute it in two parts, and where the buffers are equal or
apart it is the CBC recurrence (spec/45_stream_host.md R146 to R151). -/

namespace Sys2Proof.Safety

open Sys2Proof.Machine

/-- The chain vector and the host memory after `n` blocks from `inp` to `out`, each read, answered and written before the next
one is read (R146). -/
def streamBlocks (d : Direction) (S : SubkeyTable) :
    Nat → Nat → Nat → Block → List Host.Cell → Option (Block × List Host.Cell)
  | 0, _, _, ck, m => some (ck, m)
  | n + 1, out, inp, ck, m =>
    (memRead m inp 8).bind fun v =>
      (memWrite m out 8 (packBlock (blockAnswer S ck (unpackBlock v) d))).bind fun m' =>
        streamBlocks d S n (out + 8) (inp + 8) (blockCiphertext S ck (unpackBlock v) d) m'

section
variable {d : Direction} {S : SubkeyTable} {n out inp : Nat} {ck ck' : Block} {m m' : List Host.Cell}

/-- One block, and then the others. -/
theorem streamBlocks_succ (h : streamBlocks d S (n + 1) out inp ck m = some (ck', m')) :
    ∃ v m1, memRead m inp 8 = some v ∧ memWrite m out 8 (packBlock (blockAnswer S ck (unpackBlock v) d)) = some m1 ∧
      streamBlocks d S n (out + 8) (inp + 8) (blockCiphertext S ck (unpackBlock v) d) m1 = some (ck', m') := by
  obtain ⟨v, hread, hrest⟩ := Option.bind_eq_some_iff.mp h
  obtain ⟨m1, hwrite, hblocks⟩ := Option.bind_eq_some_iff.mp hrest
  exact ⟨v, m1, hread, hwrite, hblocks⟩

/-- Blocks in two parts, the second from where the first ended (R151). -/
theorem streamBlocks_add (k : Nat) :
    streamBlocks d S (n + k) out inp ck m =
      (streamBlocks d S n out inp ck m).bind fun x => streamBlocks d S k (out + 8 * n) (inp + 8 * n) x.1 x.2 := by
  induction n generalizing out inp ck m with
  | zero => simp [streamBlocks]
  | succ n ih =>
    have shift (a : Nat) : a + 8 + 8 * n = a + 8 * (n + 1) := by omega
    rw [Nat.add_right_comm]
    simp only [streamBlocks, ih, Option.bind_assoc, shift]

/-- Over host memory every block is read and written. -/
theorem streamBlocks_of_isHostMemory (hin : isHostMemory m inp (8 * n) = true) (hout : isHostMemory m out (8 * n) = true) :
    ∃ ck' m', streamBlocks d S n out inp ck m = some (ck', m') := by
  induction n generalizing out inp ck m with
  | zero => exact ⟨ck, m, rfl⟩
  | succ n ih =>
    have hbuf : buffersOk m ⟨d, out, inp, 8 * (n + 1)⟩ = true := buffersOk_iff.mpr ⟨hin, hout⟩
    obtain ⟨v, hread⟩ := memRead_of_buffersOk hbuf (by simp)
    obtain ⟨m1, hwrite⟩ := memWrite_of_buffersOk hbuf (by simp) (packBlock (blockAnswer S ck (unpackBlock v) d))
    dsimp only at hread hwrite
    simp only [streamBlocks, hread, hwrite, Option.bind_some]
    apply ih
    · rw [isHostMemory_memWrite hwrite]
      exact isHostMemory_part hin (by omega) (by omega)
    · rw [isHostMemory_memWrite hwrite]
      exact isHostMemory_part hout (by omega) (by omega)

/-- The blocks change the bytes of host memory but not what is host memory. -/
theorem buffersOk_streamBlocks (h : streamBlocks d S n out inp ck m = some (ck', m')) (c : StreamCall) :
    buffersOk m' c = buffersOk m c := by
  induction n generalizing out inp ck m with
  | zero => cases h; rfl
  | succ n ih =>
    obtain ⟨v, m1, -, hwrite, hblocks⟩ := streamBlocks_succ h
    rw [ih hblocks, buffersOk_memWrite hwrite]

/-- Every byte outside the output blocks keeps its value (R149). -/
theorem readByte_streamBlocks_other (h : streamBlocks d S n out inp ck m = some (ck', m')) {a : Nat}
    (ha : a < out ∨ out + 8 * n ≤ a) : readByte m' a = readByte m a := by
  induction n generalizing out inp ck m with
  | zero => cases h; rfl
  | succ n ih =>
    obtain ⟨v, m1, -, hwrite, hblocks⟩ := streamBlocks_succ h
    rw [ih hblocks (by omega), readByte_memWrite_other hwrite (by omega)]

end

/-- What is read depends on the bytes that are read. -/
theorem memRead_congr {m m' : List Host.Cell} {addr n : Nat}
    (h : ∀ k, k < n → readByte m (addr + k) = readByte m' (addr + k)) : memRead m addr n = memRead m' addr n := by
  induction n generalizing addr with
  | zero => rfl
  | succ n ih =>
    have hfirst : readByte m addr = readByte m' addr := h 0 (by omega)
    have hrest : memRead m (addr + 1) n = memRead m' (addr + 1) n := ih fun k hk => by
      rw [show addr + 1 + k = addr + (k + 1) by omega]
      exact h (k + 1) (by omega)
    simp only [memRead, hfirst, hrest]

theorem readBlocks_congr {m m' : List Host.Cell} {addr n : Nat}
    (h : ∀ k, k < 8 * n → readByte m (addr + k) = readByte m' (addr + k)) : readBlocks m addr n = readBlocks m' addr n := by
  induction n generalizing addr with
  | zero => rfl
  | succ n ih =>
    have hfirst : memRead m addr 8 = memRead m' addr 8 := memRead_congr fun k hk => h k (by omega)
    have hrest : readBlocks m (addr + 8) n = readBlocks m' (addr + 8) n := ih fun k hk => by
      rw [show addr + 8 + k = addr + (8 + k) by omega]
      exact h (8 + k) (by omega)
    simp only [readBlocks, hfirst, hrest]

/-- Of the input and output blocks of a direction, the ciphertext. -/
def ciphertexts : Direction → List Block → List Block → List Block
  | .enc, _, ys => ys
  | .dec, xs, _ => xs

theorem lastBlock_ciphertexts_cons (d : Direction) (S : SubkeyTable) (ck x : Block) (xs ys : List Block) :
    lastBlock ck (ciphertexts d (x :: xs) (blockAnswer S ck x d :: ys)) =
      lastBlock (blockCiphertext S ck x d) (ciphertexts d xs ys) := by
  cases d <;> rfl

/-- With the buffers equal or apart, the blocks are the CBC recurrence of the input as it was, and leave the last ciphertext
block in the chain vector (R146 to R148). No block is overwritten before it is read. -/
theorem streamBlocks_cbc {d : Direction} {S : SubkeyTable} {n out inp : Nat} {ck ck' : Block} {m m' : List Host.Cell}
    (h : streamBlocks d S n out inp ck m = some (ck', m'))
    (hapart : out = inp ∨ out + 8 * n ≤ inp ∨ inp + 8 * n ≤ out) :
    ∃ xs, readBlocks m inp n = some xs ∧ readBlocks m' out n = some (cbc d S ck xs) ∧
      ck' = lastBlock ck (ciphertexts d xs (cbc d S ck xs)) := by
  induction n generalizing out inp ck m with
  | zero =>
    cases h
    exact ⟨[], rfl, by rw [cbc_nil]; rfl, by cases d <;> rfl⟩
  | succ n ih =>
    obtain ⟨v, m1, hread, hwrite, hblocks⟩ := streamBlocks_succ h
    obtain ⟨xs, hxs, hys, hck⟩ := ih hblocks (by omega)
    have unread : readBlocks m (inp + 8) n = readBlocks m1 (inp + 8) n :=
      readBlocks_congr fun k hk => (readByte_memWrite_other hwrite (by omega)).symm
    have written : memRead m' out 8 = some (packBlock (blockAnswer S ck (unpackBlock v) d)) :=
      (memRead_congr fun k hk => readByte_streamBlocks_other hblocks (by omega)).trans (memRead_memWrite_same hwrite)
    refine ⟨unpackBlock v :: xs, ?_, ?_, ?_⟩
    · simp only [readBlocks, hread, unread, hxs]
    · simp only [readBlocks, written, hys, cbc_cons, unpackBlock_packBlock]
    · rw [cbc_cons, lastBlock_ciphertexts_cons]
      exact hck

/-- What is left of a stream call after `n` blocks. -/
def afterBlocks (c : StreamCall) (n : Nat) : StreamCall :=
  { c with out := c.out + 8 * n, inp := c.inp + 8 * n, len := c.len - 8 * n }

theorem afterBlocks_zero (c : StreamCall) : afterBlocks c 0 = c := rfl

theorem afterBlocks_succ (c : StreamCall) (n : Nat) : afterBlocks c (n + 1) = afterBlocks c.advance n := by
  have shift (a : Nat) : a + 8 + 8 * n = a + 8 * (n + 1) := by omega
  have left : c.len - 8 - 8 * n = c.len - 8 * (n + 1) := by omega
  simp only [afterBlocks, StreamCall.advance, shift, left]

/-- What is left of a call over host memory is over host memory. -/
theorem buffersOk_afterBlocks {m : List Host.Cell} {c : StreamCall} {n : Nat} (h : buffersOk m c = true)
    (hlen : 8 * n ≤ c.len) : buffersOk m (afterBlocks c n) = true := by
  obtain ⟨hin, hout⟩ := buffersOk_iff.mp h
  exact buffersOk_iff.mpr ⟨isHostMemory_part hin (by simp [afterBlocks]) (by simp only [afterBlocks]; omega),
    isHostMemory_part hout (by simp [afterBlocks]) (by simp only [afterBlocks]; omega)⟩

/-- The two steps of a block of a stream call, from an agent that is alone with a keyed core (R146, R147). -/
theorem run_stream_block {s : State} {S : SubkeyTable} {ck : Block} {c : StreamCall} {v : DWord} {m : List Host.Cell}
    (hl : s.life = .keyed S ck) (hbuf : buffersOk s.mem c = true) (hlen : 8 ≤ c.len) (hread : memRead s.mem c.inp 8 = some v)
    (hwrite : memWrite s.mem c.out 8 (packBlock (blockAnswer S ck (unpackBlock v) c.dir)) = some m)
    (ops : List HostOp) (got : List Receipt) (es : List Event) (k : Nat) :
    ∃ u, u.life = .keyed S (blockCiphertext S ck (unpackBlock v) c.dir) ∧ u.mem = m ∧
      Host.Core.run core (k + 2) (alone ⟨.stream c :: ops, none, got⟩ (.present 0 :: .complete :: es) s) =
        Host.Core.run core k (alone ⟨.stream c.advance :: ops, none, got⟩ es u) := by
  obtain ⟨t, hperform, hlife⟩ := perform_blockCommand hl c.dir (unpackBlock v)
  obtain ⟨hexec, hresp⟩ := exec_of_perform hperform
  obtain ⟨-, -, -, hmem, -⟩ := exec_frame hexec
  rw [← hmem] at hwrite
  exact ⟨{ t with mem := m }, hlife, rfl, run_turn (beginOp_stream_block rfl hbuf hlen hread)
    ((runRequest_command (decode_streamCmd c 0#128 v) s).trans hexec) hresp (deliver_stream_ok rfl rfl hwrite) k⟩

/-- The steps of `n` blocks of a stream call compute `streamBlocks`. -/
theorem run_streamBlocks {s : State} {S : SubkeyTable} {ck ck' : Block} {c : StreamCall} {n : Nat} {m : List Host.Cell}
    (hl : s.life = .keyed S ck) (hbuf : buffersOk s.mem c = true) (hlen : 8 * n ≤ c.len)
    (h : streamBlocks c.dir S n c.out c.inp ck s.mem = some (ck', m))
    (ops : List HostOp) (got : List Receipt) (es : List Event) (k : Nat) :
    ∃ t, t.life = .keyed S ck' ∧ t.mem = m ∧
      Host.Core.run core (2 * n + k) (alone ⟨.stream c :: ops, none, got⟩ (soloEvents n ++ es) s) =
        Host.Core.run core k (alone ⟨.stream (afterBlocks c n) :: ops, none, got⟩ es t) := by
  induction n generalizing s ck c with
  | zero =>
    cases h
    exact ⟨s, hl, rfl, by rw [afterBlocks_zero, Nat.mul_zero, Nat.zero_add]; rfl⟩
  | succ n ih =>
    obtain ⟨v, m1, hread, hwrite, hblocks⟩ := streamBlocks_succ h
    obtain ⟨u, hul, rfl, hturn⟩ := run_stream_block hl hbuf (by omega) hread hwrite ops got (soloEvents n ++ es)
      (2 * n + k)
    have hbuf' : buffersOk u.mem c.advance = true :=
      (buffersOk_memWrite hwrite _).trans (buffersOk_afterBlocks (n := 1) hbuf (by omega))
    obtain ⟨t, htl, htm, hrun⟩ := ih hul hbuf' (by simp only [StreamCall.advance]; omega) hblocks
    refine ⟨t, htl, htm, ?_⟩
    rw [afterBlocks_succ, ← hrun, ← hturn, show 2 * (n + 1) + k = 2 * n + k + 2 by omega]
    rfl

/-- The turn of an agent that is alone, with no whole block left of its stream call: the call returns OK (R149). -/
theorem step_alone_stream_end {s : State} {c : StreamCall} (hbuf : buffersOk s.mem c = true) (hlen : c.len < 8)
    (ops : List HostOp) (got : List Receipt) (es : List Event) :
    step (alone ⟨.stream c :: ops, none, got⟩ (.present 0 :: es) s) =
      .next (alone ⟨ops, none, got ++ [.returned .ok]⟩ es s) :=
  calc step (alone ⟨.stream c :: ops, none, got⟩ (.present 0 :: es) s)
      = present 0 (alone ⟨.stream c :: ops, none, got⟩ es s) := step_present rfl
    _ = beginOp 0 ⟨.stream c :: ops, none, got⟩ (alone ⟨.stream c :: ops, none, got⟩ es s) :=
      present_eq_beginOp rfl (awaitsResponse_none rfl) rfl
    _ = .next (alone ⟨ops, none, got ++ [.returned .ok]⟩ es s) :=
      beginOp_stream_short (s := alone _ es s) rfl hbuf hlen

/-- A whole stream call: its blocks, and the turn in which it returns OK (R149). -/
theorem run_stream {s : State} {S : SubkeyTable} {ck ck' : Block} {c : StreamCall} {n : Nat} {m : List Host.Cell}
    (hn : c.len / 8 = n) (hl : s.life = .keyed S ck) (hbuf : buffersOk s.mem c = true)
    (h : streamBlocks c.dir S n c.out c.inp ck s.mem = some (ck', m))
    (ops : List HostOp) (got : List Receipt) (es : List Event) (k : Nat) :
    ∃ t, t.life = .keyed S ck' ∧ t.mem = m ∧
      Host.Core.run core (2 * n + (k + 1))
        (alone ⟨.stream c :: ops, none, got⟩ (soloEvents n ++ .present 0 :: es) s) =
        Host.Core.run core k (alone ⟨ops, none, got ++ [.returned .ok]⟩ es t) := by
  have hlen : 8 * n ≤ c.len := by omega
  have hleft : (afterBlocks c n).len < 8 := by simp only [afterBlocks]; omega
  obtain ⟨t, htl, rfl, hrun⟩ := run_streamBlocks hl hbuf hlen h ops got (.present 0 :: es) (k + 1)
  have hbuf' : buffersOk t.mem (afterBlocks c n) = true :=
    (buffersOk_streamBlocks h _).trans (buffersOk_afterBlocks hbuf hlen)
  exact ⟨t, htl, rfl, hrun.trans (run_of_step (step_alone_stream_end hbuf' hleft ops got es) k)⟩

/-- The blocks of a call over host memory are all read and written. -/
theorem streamBlocks_of_buffersOk {m : List Host.Cell} {c : StreamCall} {n : Nat} (h : buffersOk m c = true)
    (hlen : 8 * n ≤ c.len) (S : SubkeyTable) (ck : Block) :
    ∃ ck' m', streamBlocks c.dir S n c.out c.inp ck m = some (ck', m') := by
  obtain ⟨hin, hout⟩ := buffersOk_iff.mp h
  exact streamBlocks_of_isHostMemory (isHostMemory_part hin (le_refl _) (by omega))
    (isHostMemory_part hout (le_refl _) (by omega))

/-- Settles O54: the run computes `streamBlocks`, which is the CBC recurrence and writes the output blocks only. -/
theorem streamOnKeyedCore : Obligations.StreamOnKeyedCore := by
  intro s S ck c rest hl hbuf hapart
  have hlen : 8 * (c.len / 8) ≤ c.len := Nat.mul_div_le c.len 8
  obtain ⟨ck', m, h⟩ := streamBlocks_of_buffersOk hbuf hlen S ck
  obtain ⟨t, htl, rfl, hrun⟩ := run_stream rfl hl hbuf h [] [] rest 0
  obtain ⟨xs, hxs, hys, rfl⟩ := streamBlocks_cbc h (by omega)
  refine ⟨alone ⟨[], none, [.returned .ok]⟩ rest t, xs, _, hrun, hxs, hys, fun hd => ?_, fun hd => ?_,
    fun a => readByte_streamBlocks_other h, rfl, rfl⟩
  · rw [hd] at htl ⊢
    exact ⟨rfl, htl⟩
  · rw [hd] at htl ⊢
    exact ⟨rfl, htl⟩

/-- Settles O58: the one call computes `streamBlocks` of all its blocks, which are those of the first call and then those of
the second (`streamBlocks_add`). -/
theorem streamsChainAcrossCalls : Obligations.StreamsChainAcrossCalls := by
  intro s dir out inp m n hkeyed hbuf
  obtain ⟨S, ck, hl⟩ := (keyed_iff_values s).mp hkeyed
  obtain ⟨hin, hout⟩ := buffersOk_iff.mp hbuf
  dsimp only at hin hout
  have hbuf1 : buffersOk s.mem ⟨dir, out, inp, 8 * m⟩ = true :=
    buffersOk_iff.mpr ⟨isHostMemory_part hin (le_refl _) (by simp), isHostMemory_part hout (le_refl _) (by simp)⟩
  have hbuf2 : buffersOk s.mem ⟨dir, out + 8 * m, inp + 8 * m, n⟩ = true :=
    buffersOk_iff.mpr ⟨isHostMemory_part hin (by simp) (by simp [Nat.add_assoc]),
      isHostMemory_part hout (by simp) (by simp [Nat.add_assoc])⟩
  have hcount : (8 * m + n) / 8 = m + n / 8 := by omega
  obtain ⟨ck2, m2, h⟩ := streamBlocks_of_buffersOk hbuf (Nat.mul_div_le (8 * m + n) 8) S ck
  obtain ⟨u, hul, rfl, hrun⟩ := run_stream rfl hl hbuf h [] [] [] 0
  rw [hcount, streamBlocks_add] at h
  obtain ⟨⟨ck1, m1⟩, h1, h2⟩ := Option.bind_eq_some_iff.mp h
  obtain ⟨s1, hl1, rfl, hrun1⟩ := run_stream (c := ⟨dir, out, inp, 8 * m⟩) (Nat.mul_div_cancel_left m (by decide)) hl
    hbuf1 h1 [.stream ⟨dir, out + 8 * m, inp + 8 * m, n⟩] [] (soloEvents (n / 8) ++ [.present 0]) (2 * (n / 8) + 1)
  obtain ⟨t, htl, htm, hrun2⟩ := run_stream (c := ⟨dir, out + 8 * m, inp + 8 * m, n⟩) rfl hl1
    ((buffersOk_streamBlocks h1 _).trans hbuf2) h2 [] [.returned .ok] [] 0
  refine ⟨alone ⟨[], none, [.returned .ok, .returned .ok]⟩ [] t, alone ⟨[], none, [.returned .ok]⟩ [] u, ?_, hrun, htm,
    htl.trans hul.symm⟩
  have hsteps : 2 * m + 1 + 2 * (n / 8) + 1 = 2 * m + (2 * (n / 8) + 1 + 1) := by omega
  rw [solo_eq_alone, List.append_assoc, List.cons_append, hsteps]
  exact hrun1.trans hrun2

end Sys2Proof.Safety
end

section
/-! The assembler's lines and the pseudo-instructions (spec/30_encoding.md R70, R71). -/

namespace Sys2Proof.Machine

/-- The word of RDSK with an index, written as the rule does (R59, R62). -/
theorem rdskWord_eq (idx : BitVec 5) : cmdWord 4#4 idx = 0x00000004#32 ||| (idx.setWidth 32 <<< 8) := by
  revert idx
  decide +kernel

/-- Settles O59: the lines are read by running the parser, and the words are those of `encode`. -/
theorem assemblerLines : Obligations.AssemblerLines := by
  refine ⟨by decide +kernel, by decide +kernel, by decide +kernel, by decide +kernel, by decide +kernel, by decide +kernel,
    fun key => ?_, fun p => ?_, fun c => ?_, fun k hk => ?_, ?_, fun w => rfl⟩
  · rw [keyinitWord_eq]
    rfl
  · rw [encblkWord_eq]
    rfl
  · rw [decblkWord_eq]
    rfl
  · have hindex : (BitVec.ofNat 5 k).setWidth 32 = BitVec.ofNat 32 k := BitVec.setWidth_ofNat_of_le_of_lt (by decide) hk
    rw [← hindex, ← rdskWord_eq]
    rfl
  · rw [rdckWord_eq]
    rfl

/-- Settles O60: each expansion is a definition of the assembler; RDSKALL's is a list over the 26 indices. -/
theorem pseudoInstructions : Obligations.PseudoInstructions := by
  have rdskall : AsmLine.rdskall.ops = (List.range 26).map fun k => .command (encode (.rdsk k)) := rfl
  refine ⟨fun key => rfl, fun out inp len => rfl, fun out inp len => rfl, ?_, fun k hk => ?_⟩
  · rw [rdskall, List.length_map, List.length_range]
  · rw [rdskall, List.getElem?_map, List.getElem?_range hk, Option.map_some]

end Sys2Proof.Machine
end
